-- ==== Sys2Proof/Word.lean ====
section
/-! DEFINITION. The widths of the machine's values (R6, R12): every value is an unsigned bit vector of a stated
width, except the numbers the spec only ever uses to select one of sixteen things (register and key numbers). -/

namespace Sys2Proof

/-- An 8-bit value: a memory cell, a general register, a timer, an immediate `kk` (R6, R20, R29, R71). -/
abbrev Byte := BitVec 8

/-- A 16-bit value: the instruction word, `pc`, `I`, a stack entry (R24, R26, R27, R70). -/
abbrev Word := BitVec 16

/-- The 12-bit address field `nnn` of an instruction word (R71, R73). -/
abbrev Addr := BitVec 12

/-- A 4-bit nibble: an opcode or sub-opcode nibble, or the row count `n` of DRW (R71, R73). -/
abbrev Nibble := BitVec 4

/-- A general register's number, 0 to 15 for V0 to VF; it can never be out of range (R20). -/
abbrev Reg := Fin 16

/-- The number of a hex key, 0 to 15 (R31, R234). -/
abbrev Key := Fin 16

/-- VF, register 15, the carry, borrow and collision flag (R21). -/
abbrev vf : Reg := 15

end Sys2Proof
end

