-- ==== Sys2Proof/Config.lean ====
section
/-! DEFINITION. What is fixed for one machine but left open by the spec: the parameter ALIAS_DECODE (R7, R76), and the
free values, opaque constants about which nothing can be proved (assumption log 6, 9). The sizes of R6 are fixed by the
spec and stand as numbers where they are used. -/

namespace Sys2Proof

/-- The one parameter of the block (R7, R8): whether the dispatch ignores the bits its key does not name (R76). -/
structure Config where
  /-- `true`: 0x0000 is CLS and 0x5555 is SE V5, V5. `false`: only the canonical spellings are instructions. -/
  aliasDecode : Bool
deriving DecidableEq, Repr

/-- Free value (R200, log 9): the byte the `n`-th draw of the environment gives. No value of it can be proved. -/
opaque Config.randomByte : Nat → Byte

/-- Free values (R228, log 6): what each part of the machine holds in a Fault state; "the values of all other state in
a Fault state are unspecified". The argument numbers the occasion. -/
opaque Config.faultV : Nat → Vector Byte 16
/-- Free value of `I` in a Fault state (R228). -/
opaque Config.faultI : Nat → Word
/-- Free value of `pc` in a Fault state (R228). -/
opaque Config.faultPc : Nat → Word
/-- Free value of the call stack in a Fault state (R228). -/
opaque Config.faultStack : Nat → Vector Word 12
/-- Free value of `sp` in a Fault state (R228). -/
opaque Config.faultSp : Nat → Fin 13
/-- Free value of the delay timer in a Fault state (R228). -/
opaque Config.faultDT : Nat → Byte
/-- Free value of the sound timer in a Fault state (R228). -/
opaque Config.faultST : Nat → Byte
/-- Free value of each memory cell in a Fault state (R228): occasion, then address. -/
opaque Config.faultMem : Nat → Nat → Byte
/-- Free value of the framebuffer in a Fault state (R228). -/
opaque Config.faultFb : Nat → Vector (BitVec 64) 32
/-- Free value of the key state in a Fault state (R228). -/
opaque Config.faultKey : Nat → BitVec 16
/-- Free value of the pending-key marker in a Fault state (R228). -/
opaque Config.faultWait : Nat → Option Reg

end Sys2Proof
end

