-- ==== Sys2Proof/Syntax.lean ====
section
/-! DEFINITION. The 34 instructions of the opcode map (R75), one constructor per row of spec/opcode_table.json. The
operand fields have the widths of R71, so a register number, an address or an immediate cannot be out of range (R20,
R73). -/

namespace Sys2Proof

/-- An instruction with its operands. `x`, `y` are register numbers, `kk` an 8-bit immediate, `nnn` a 12-bit address,
`n` a 4-bit row count (R17, R71). -/
inductive Instr where
  /-- 00E0, clear-screen (R190). -/
  | cls
  /-- 00EE, return (R120). -/
  | ret
  /-- 1nnn, jump (R121). -/
  | jp (nnn : Addr)
  /-- 2nnn, call (R122). -/
  | call (nnn : Addr)
  /-- 3xkk, skip if equal, register and immediate (R123). -/
  | seImm (x : Reg) (kk : Byte)
  /-- 4xkk, skip if not equal, register and immediate (R124). -/
  | sneImm (x : Reg) (kk : Byte)
  /-- 5xy0, skip if equal, two registers (R125). -/
  | seReg (x y : Reg)
  /-- 6xkk, load immediate (R140). -/
  | ldImm (x : Reg) (kk : Byte)
  /-- 7xkk, add immediate (R141). -/
  | addImm (x : Reg) (kk : Byte)
  /-- 8xy0, register-to-register load (R142). -/
  | ldReg (x y : Reg)
  /-- 8xy1, bitwise OR (R143). -/
  | orReg (x y : Reg)
  /-- 8xy2, bitwise AND (R144). -/
  | andReg (x y : Reg)
  /-- 8xy3, bitwise exclusive OR (R145). -/
  | xorReg (x y : Reg)
  /-- 8xy4, add with carry out (R146). -/
  | addReg (x y : Reg)
  /-- 8xy5, subtract with no-borrow flag (R147). -/
  | subReg (x y : Reg)
  /-- 8xy6, shift right by one (R148). -/
  | shrReg (x y : Reg)
  /-- 8xy7, reverse subtract (R149). -/
  | subnReg (x y : Reg)
  /-- 8xyE, shift left by one (R150). -/
  | shlReg (x y : Reg)
  /-- 9xy0, skip if not equal, two registers (R126). -/
  | sneReg (x y : Reg)
  /-- Annn, load index (R170). -/
  | ldI (nnn : Addr)
  /-- Bnnn, jump with offset V0 (R127). -/
  | jpV0 (nnn : Addr)
  /-- Cxkk, random byte under a mask (R200). -/
  | rnd (x : Reg) (kk : Byte)
  /-- Dxyn, draw a sprite (R191). -/
  | drw (x y : Reg) (n : Nibble)
  /-- Ex9E, skip if key pressed (R201). -/
  | skp (x : Reg)
  /-- ExA1, skip if key not pressed (R202). -/
  | sknp (x : Reg)
  /-- Fx07, read the delay timer (R203). -/
  | ldVxDT (x : Reg)
  /-- Fx0A, wait for a key (R206). -/
  | ldVxK (x : Reg)
  /-- Fx15, set the delay timer (R204). -/
  | ldDTVx (x : Reg)
  /-- Fx18, set the sound timer (R205). -/
  | ldSTVx (x : Reg)
  /-- Fx1E, add to index (R171). -/
  | addIVx (x : Reg)
  /-- Fx29, address of a font glyph (R172). -/
  | ldFVx (x : Reg)
  /-- Fx33, store binary-coded decimal (R173). -/
  | ldBVx (x : Reg)
  /-- Fx55, register dump (R174). -/
  | ldMemVx (x : Reg)
  /-- Fx65, register load (R175). -/
  | ldVxMem (x : Reg)
deriving DecidableEq, Repr

end Sys2Proof
end

