-- ==== Sys2Proof/WellFormed.lean ====
section
/-! DEFINITION. What is well formed before the machine sees it: the bytes and the word of an instruction (the mask and
match rows of R75 under both readings of R76, written apart from the decoder so that the two can be compared), a
program image, and a sequence of host events. An `Instr` itself needs no check: its operand fields have exactly the
widths of R71, and "a register number can never be out of range" (R20). -/

namespace Sys2Proof

/-- One row of the opcode map (R75): the table's name for it, "match" and "mask" for `ALIAS_DECODE = true`, and the
canonical match and mask for `ALIAS_DECODE = false` (R76). -/
structure Row where
  mnemonic : String
  matchWord : Word
  mask : Word
  canonicalMatch : Word
  canonicalMask : Word
deriving DecidableEq, Repr

/-- R75, row 00E0. -/
def rowCls : Row := ⟨"CLS", 0x0000#16, 0xF00F#16, 0x00E0#16, 0xFFFF#16⟩
/-- R75, row 00EE. -/
def rowRet : Row := ⟨"RET", 0x000E#16, 0xF00F#16, 0x00EE#16, 0xFFFF#16⟩
/-- R75, row 1nnn. -/
def rowJp : Row := ⟨"JP_nnn", 0x1000#16, 0xF000#16, 0x1000#16, 0xF000#16⟩
/-- R75, row 2nnn. -/
def rowCall : Row := ⟨"CALL_nnn", 0x2000#16, 0xF000#16, 0x2000#16, 0xF000#16⟩
/-- R75, row 3xkk. -/
def rowSeImm : Row := ⟨"SE_Vx__kk", 0x3000#16, 0xF000#16, 0x3000#16, 0xF000#16⟩
/-- R75, row 4xkk. -/
def rowSneImm : Row := ⟨"SNE_Vx__kk", 0x4000#16, 0xF000#16, 0x4000#16, 0xF000#16⟩
/-- R75, row 5xy0. -/
def rowSeReg : Row := ⟨"SE_Vx__Vy", 0x5000#16, 0xF000#16, 0x5000#16, 0xF00F#16⟩
/-- R75, row 6xkk. -/
def rowLdImm : Row := ⟨"LD_Vx__kk", 0x6000#16, 0xF000#16, 0x6000#16, 0xF000#16⟩
/-- R75, row 7xkk. -/
def rowAddImm : Row := ⟨"ADD_Vx__kk", 0x7000#16, 0xF000#16, 0x7000#16, 0xF000#16⟩
/-- R75, row 8xy0. -/
def rowLdReg : Row := ⟨"LD_Vx__Vy", 0x8000#16, 0xF00F#16, 0x8000#16, 0xF00F#16⟩
/-- R75, row 8xy1. -/
def rowOrReg : Row := ⟨"OR_Vx__Vy", 0x8001#16, 0xF00F#16, 0x8001#16, 0xF00F#16⟩
/-- R75, row 8xy2. -/
def rowAndReg : Row := ⟨"AND_Vx__Vy", 0x8002#16, 0xF00F#16, 0x8002#16, 0xF00F#16⟩
/-- R75, row 8xy3. -/
def rowXorReg : Row := ⟨"XOR_Vx__Vy", 0x8003#16, 0xF00F#16, 0x8003#16, 0xF00F#16⟩
/-- R75, row 8xy4. -/
def rowAddReg : Row := ⟨"ADD_Vx__Vy", 0x8004#16, 0xF00F#16, 0x8004#16, 0xF00F#16⟩
/-- R75, row 8xy5. -/
def rowSubReg : Row := ⟨"SUB_Vx__Vy", 0x8005#16, 0xF00F#16, 0x8005#16, 0xF00F#16⟩
/-- R75, row 8xy6. -/
def rowShrReg : Row := ⟨"SHR_Vx__Vy", 0x8006#16, 0xF00F#16, 0x8006#16, 0xF00F#16⟩
/-- R75, row 8xy7. -/
def rowSubnReg : Row := ⟨"SUBN_Vx__Vy", 0x8007#16, 0xF00F#16, 0x8007#16, 0xF00F#16⟩
/-- R75, row 8xyE. -/
def rowShlReg : Row := ⟨"SHL_Vx__Vy", 0x800E#16, 0xF00F#16, 0x800E#16, 0xF00F#16⟩
/-- R75, row 9xy0. -/
def rowSneReg : Row := ⟨"SNE_Vx__Vy", 0x9000#16, 0xF000#16, 0x9000#16, 0xF00F#16⟩
/-- R75, row Annn. -/
def rowLdI : Row := ⟨"LD_I__nnn", 0xA000#16, 0xF000#16, 0xA000#16, 0xF000#16⟩
/-- R75, row Bnnn. -/
def rowJpV0 : Row := ⟨"JP_V0__nnn", 0xB000#16, 0xF000#16, 0xB000#16, 0xF000#16⟩
/-- R75, row Cxkk. -/
def rowRnd : Row := ⟨"RND_Vx__kk", 0xC000#16, 0xF000#16, 0xC000#16, 0xF000#16⟩
/-- R75, row Dxyn. -/
def rowDrw : Row := ⟨"DRW_Vx__Vy__n", 0xD000#16, 0xF000#16, 0xD000#16, 0xF000#16⟩
/-- R75, row Ex9E. -/
def rowSkp : Row := ⟨"SKP_Vx", 0xE09E#16, 0xF0FF#16, 0xE09E#16, 0xF0FF#16⟩
/-- R75, row ExA1. -/
def rowSknp : Row := ⟨"SKNP_Vx", 0xE0A1#16, 0xF0FF#16, 0xE0A1#16, 0xF0FF#16⟩
/-- R75, row Fx07. -/
def rowLdVxDT : Row := ⟨"LD_Vx__DT", 0xF007#16, 0xF0FF#16, 0xF007#16, 0xF0FF#16⟩
/-- R75, row Fx0A. -/
def rowLdVxK : Row := ⟨"LD_Vx__K", 0xF00A#16, 0xF0FF#16, 0xF00A#16, 0xF0FF#16⟩
/-- R75, row Fx15. -/
def rowLdDTVx : Row := ⟨"LD_DT__Vx", 0xF015#16, 0xF0FF#16, 0xF015#16, 0xF0FF#16⟩
/-- R75, row Fx18. -/
def rowLdSTVx : Row := ⟨"LD_ST__Vx", 0xF018#16, 0xF0FF#16, 0xF018#16, 0xF0FF#16⟩
/-- R75, row Fx1E. -/
def rowAddIVx : Row := ⟨"ADD_I__Vx", 0xF01E#16, 0xF0FF#16, 0xF01E#16, 0xF0FF#16⟩
/-- R75, row Fx29. -/
def rowLdFVx : Row := ⟨"LD_F__Vx", 0xF029#16, 0xF0FF#16, 0xF029#16, 0xF0FF#16⟩
/-- R75, row Fx33. -/
def rowLdBVx : Row := ⟨"LD_B__Vx", 0xF033#16, 0xF0FF#16, 0xF033#16, 0xF0FF#16⟩
/-- R75, row Fx55. -/
def rowLdMemVx : Row := ⟨"LD__I___Vx", 0xF055#16, 0xF0FF#16, 0xF055#16, 0xF0FF#16⟩
/-- R75, row Fx65. -/
def rowLdVxMem : Row := ⟨"LD_Vx___I", 0xF065#16, 0xF0FF#16, 0xF065#16, 0xF0FF#16⟩

/-- The opcode map (R75), in opcode order. -/
def opcodeTable : List Row :=
  [rowCls, rowRet, rowJp, rowCall, rowSeImm, rowSneImm, rowSeReg, rowLdImm, rowAddImm] ++
  [rowLdReg, rowOrReg, rowAndReg, rowXorReg, rowAddReg, rowSubReg, rowShrReg, rowSubnReg, rowShlReg] ++
  [rowSneReg, rowLdI, rowJpV0, rowRnd, rowDrw, rowSkp, rowSknp, rowLdVxDT, rowLdVxK] ++
  [rowLdDTVx, rowLdSTVx, rowAddIVx, rowLdFVx, rowLdBVx, rowLdMemVx, rowLdVxMem]

/-- The row of the opcode map an instruction belongs to. -/
def Instr.row : Instr → Row
  | .cls => rowCls
  | .ret => rowRet
  | .jp _ => rowJp
  | .call _ => rowCall
  | .seImm _ _ => rowSeImm
  | .sneImm _ _ => rowSneImm
  | .seReg _ _ => rowSeReg
  | .ldImm _ _ => rowLdImm
  | .addImm _ _ => rowAddImm
  | .ldReg _ _ => rowLdReg
  | .orReg _ _ => rowOrReg
  | .andReg _ _ => rowAndReg
  | .xorReg _ _ => rowXorReg
  | .addReg _ _ => rowAddReg
  | .subReg _ _ => rowSubReg
  | .shrReg _ _ => rowShrReg
  | .subnReg _ _ => rowSubnReg
  | .shlReg _ _ => rowShlReg
  | .sneReg _ _ => rowSneReg
  | .ldI _ => rowLdI
  | .jpV0 _ => rowJpV0
  | .rnd _ _ => rowRnd
  | .drw _ _ _ => rowDrw
  | .skp _ => rowSkp
  | .sknp _ => rowSknp
  | .ldVxDT _ => rowLdVxDT
  | .ldVxK _ => rowLdVxK
  | .ldDTVx _ => rowLdDTVx
  | .ldSTVx _ => rowLdSTVx
  | .addIVx _ => rowAddIVx
  | .ldFVx _ => rowLdFVx
  | .ldBVx _ => rowLdBVx
  | .ldMemVx _ => rowLdMemVx
  | .ldVxMem _ => rowLdVxMem

/-- R75, R76: whether the word `w` selects the row. -/
def Row.selects (cfg : Config) (r : Row) (w : Word) : Bool :=
  if cfg.aliasDecode then w &&& r.mask == r.matchWord else w &&& r.canonicalMask == r.canonicalMatch

/-- R105: the two rows select no common word, under `ALIAS_DECODE = true` (and so under `false`): some bit that both
masks name has different values in the two match words. -/
def Row.apart (r q : Row) : Bool := r.matchWord &&& (r.mask &&& q.mask) != q.matchWord &&& (r.mask &&& q.mask)

/-- A word is an instruction word when some row of the opcode map selects it; every other word is unknown (R77). -/
def wordWellFormed (cfg : Config) (w : Word) : Bool := opcodeTable.any (·.selects cfg w)

/-- R70: an instruction is exactly two bytes. -/
def bytesWellFormed (bs : List Byte) : Bool := bs.length == 2

/-- R236: a program image must fit between 0x200 and 0xFFF, or it wraps over the font and itself; the block does not
reject it, so the check stands here. -/
def romWellFormed (rom : List Byte) : Bool := rom.length ≤ 3584

/-- The events the host may issue (R9, R226). A key number outside 0 to 15 cannot be written down (log 16). -/
inductive HostEvent where
  /-- Put every piece of state at its reset value (R260). -/
  | reset
  /-- Write one byte of memory before the run (R236); the address is reduced modulo 4096 (R14). -/
  | loadMem (addr : Nat) (b : Byte)
  /-- Fetch, decode, dispatch and execute one instruction (R100). -/
  | cycle
  /-- Decrement both timers, floor 0 (R231). -/
  | timerTick
  /-- Hex key `k` has gone down (R232). -/
  | keyDown (k : Key)
  /-- Hex key `k` has gone up (R233). -/
  | keyUp (k : Key)
  /-- Read the 2048 framebuffer cells (R235). -/
  | readFramebuffer
deriving DecidableEq, Repr

/-- R236: "After the first `Cycle` the host no longer writes memory". `begun` says whether a cycle has been issued
since the last reset. -/
def eventsWellFormed (begun : Bool) : List HostEvent → Bool
  | [] => true
  | .reset :: es => eventsWellFormed false es
  | .loadMem _ _ :: es => !begun && eventsWellFormed begun es
  | .cycle :: es => eventsWellFormed true es
  | .timerTick :: es => eventsWellFormed begun es
  | .keyDown _ :: es => eventsWellFormed begun es
  | .keyUp _ :: es => eventsWellFormed begun es
  | .readFramebuffer :: es => eventsWellFormed begun es

end Sys2Proof
end

