-- ==== Sys2Proof/Decode.lean ====
section
/-! DEFINITION. The decoder: field slicing (R71, R103), the dispatch key (R74, R104), the lookup (R105) under both
readings of ALIAS_DECODE (R76), the decoder on bytes (R51, R70), and after it the encoder, written from the same
encoding columns of R72 and R75. -/

namespace Sys2Proof

/-- The spec's decision for the parameter (R7, 90_conflicts.md C1, C2; log 1). DESIGN CHOICE of the spec. -/
def decidedConfig : Config := { aliasDecode := true }

/-- The decoded view of one instruction word (R71, R103). -/
structure Fields where
  op : Nibble
  x : Reg
  y : Reg
  n : Nibble
  kk : Byte
  nnn : Addr
deriving DecidableEq, Repr

/-- The slice `w[lo + width - 1 : lo]` (R12). -/
def slice (w : Word) (lo width : Nat) : BitVec width := w.extractLsb' lo width

/-- A 4-bit slice used as a register number (R73). -/
def regOfNibble (b : Nibble) : Reg := b.toFin

/-- R71, R103: the six slices, computed for every word. -/
def fieldsOf (w : Word) : Fields where
  op := slice w 12 4
  x := regOfNibble (slice w 8 4)
  y := regOfNibble (slice w 4 4)
  n := slice w 0 4
  kk := slice w 0 8
  nnn := slice w 0 12

/-- The two-level dispatch key (R74): top nibble and low nibble, top nibble and low byte, or top nibble alone. -/
inductive DispatchKey where
  | classN (op low : Nibble)
  | classB (op : Nibble) (low : Byte)
  | classT (op : Nibble)
deriving DecidableEq, Repr

/-- `key(w)` of R74, from the slices. -/
def dispatchKey (f : Fields) : DispatchKey :=
  if f.op = 0x0#4 ∨ f.op = 0x8#4 then .classN f.op f.n
  else if f.op = 0xE#4 ∨ f.op = 0xF#4 then .classB f.op f.kk
  else .classT f.op

/-- R76: an instruction whose key ignores some bits of its canonical spelling. With `ALIAS_DECODE = false` the word
must be spelt canonically. -/
def canonicalUnlessAlias (cfg : Config) (canonical : Bool) (i : Instr) : Option Instr :=
  if cfg.aliasDecode || canonical then some i else none

/-- The 0-family (R74, R75, R76). -/
def lookupZero (cfg : Config) (w : Word) (low : Nibble) : Option Instr :=
  if low = 0x0#4 then canonicalUnlessAlias cfg (w == 0x00E0#16) .cls
  else if low = 0xE#4 then canonicalUnlessAlias cfg (w == 0x00EE#16) .ret
  else none

/-- The 8-family, sub-dispatched on the low nibble (R74, R75). -/
def lookupEight (f : Fields) (low : Nibble) : Option Instr :=
  match low with
  | 0x0#4 => some (.ldReg f.x f.y)
  | 0x1#4 => some (.orReg f.x f.y)
  | 0x2#4 => some (.andReg f.x f.y)
  | 0x3#4 => some (.xorReg f.x f.y)
  | 0x4#4 => some (.addReg f.x f.y)
  | 0x5#4 => some (.subReg f.x f.y)
  | 0x6#4 => some (.shrReg f.x f.y)
  | 0x7#4 => some (.subnReg f.x f.y)
  | 0xE#4 => some (.shlReg f.x f.y)
  | _ => none

/-- The E-family, sub-dispatched on the low byte (R74, R75). -/
def lookupE (f : Fields) (low : Byte) : Option Instr :=
  match low with
  | 0x9E#8 => some (.skp f.x)
  | 0xA1#8 => some (.sknp f.x)
  | _ => none

/-- The F-family, sub-dispatched on the low byte (R74, R75). -/
def lookupF (f : Fields) (low : Byte) : Option Instr :=
  match low with
  | 0x07#8 => some (.ldVxDT f.x)
  | 0x0A#8 => some (.ldVxK f.x)
  | 0x15#8 => some (.ldDTVx f.x)
  | 0x18#8 => some (.ldSTVx f.x)
  | 0x1E#8 => some (.addIVx f.x)
  | 0x29#8 => some (.ldFVx f.x)
  | 0x33#8 => some (.ldBVx f.x)
  | 0x55#8 => some (.ldMemVx f.x)
  | 0x65#8 => some (.ldVxMem f.x)
  | _ => none

/-- The twelve families dispatched on the top nibble alone (R74, R75, R76). -/
def lookupTop (cfg : Config) (f : Fields) (op : Nibble) : Option Instr :=
  match op with
  | 0x1#4 => some (.jp f.nnn)
  | 0x2#4 => some (.call f.nnn)
  | 0x3#4 => some (.seImm f.x f.kk)
  | 0x4#4 => some (.sneImm f.x f.kk)
  | 0x5#4 => canonicalUnlessAlias cfg (f.n == 0x0#4) (.seReg f.x f.y)
  | 0x6#4 => some (.ldImm f.x f.kk)
  | 0x7#4 => some (.addImm f.x f.kk)
  | 0x9#4 => canonicalUnlessAlias cfg (f.n == 0x0#4) (.sneReg f.x f.y)
  | 0xA#4 => some (.ldI f.nnn)
  | 0xB#4 => some (.jpV0 f.nnn)
  | 0xC#4 => some (.rnd f.x f.kk)
  | 0xD#4 => some (.drw f.x f.y f.n)
  | _ => none

/-- R105: the lookup returns exactly one handler or none. -/
def lookup (cfg : Config) (w : Word) (f : Fields) : DispatchKey → Option Instr
  | .classN op low => if op = 0x0#4 then lookupZero cfg w low else lookupEight f low
  | .classB op low => if op = 0xE#4 then lookupE f low else lookupF f low
  | .classT op => lookupTop cfg f op

/-- R103 to R105: slice, compute the key, look up. `none` is the unknown-opcode path (R77, R106). -/
def decodeWord (cfg : Config) (w : Word) : Option Instr :=
  lookup cfg w (fieldsOf w) (dispatchKey (fieldsOf w))

/-- Why bytes are not an instruction. -/
inductive DecodeError where
  /-- Fewer than two bytes (R70). -/
  | tooShort
  /-- The word's key selects no row (R77); the report of R223 carries the word. -/
  | unknownOpcode (w : Word)
deriving DecidableEq, Repr

/-- R51: the byte at the lower address is the high octet. -/
def wordOfBytes (hi lo : Byte) : Word := hi ++ lo

/-- The decoder on a list of bytes: one instruction and the rest of the list, or the reason there is none (R51, R70). -/
def decodeBytes (cfg : Config) : List Byte → Except DecodeError (Instr × List Byte)
  | hi :: lo :: rest =>
    match decodeWord cfg (wordOfBytes hi lo) with
    | some i => .ok (i, rest)
    | none => .error (.unknownOpcode (wordOfBytes hi lo))
  | _ => .error .tooShort

/-! The encoder (R72, R75): each instruction's canonical word, nibble by nibble as its pattern is printed. -/

/-- A register number as a 4-bit field (R73). -/
def nibbleOfReg (x : Reg) : Nibble := BitVec.ofFin x

/-- Format NNN (R72). -/
def formatNNN (op : Nibble) (nnn : Addr) : Word := op ++ nnn

/-- Format XKK (R72). -/
def formatXKK (op : Nibble) (x : Reg) (kk : Byte) : Word := op ++ nibbleOfReg x ++ kk

/-- Formats XY and XYN (R72): the last nibble is a sub-opcode, the canonical 0, or `n`. -/
def formatXYN (op : Nibble) (x y : Reg) (low : Nibble) : Word := op ++ nibbleOfReg x ++ nibbleOfReg y ++ low

/-- The canonical word of an instruction (R75, pattern column). -/
def encode : Instr → Word
  | .cls => 0x00E0#16
  | .ret => 0x00EE#16
  | .jp nnn => formatNNN 0x1#4 nnn
  | .call nnn => formatNNN 0x2#4 nnn
  | .seImm x kk => formatXKK 0x3#4 x kk
  | .sneImm x kk => formatXKK 0x4#4 x kk
  | .seReg x y => formatXYN 0x5#4 x y 0x0#4
  | .ldImm x kk => formatXKK 0x6#4 x kk
  | .addImm x kk => formatXKK 0x7#4 x kk
  | .ldReg x y => formatXYN 0x8#4 x y 0x0#4
  | .orReg x y => formatXYN 0x8#4 x y 0x1#4
  | .andReg x y => formatXYN 0x8#4 x y 0x2#4
  | .xorReg x y => formatXYN 0x8#4 x y 0x3#4
  | .addReg x y => formatXYN 0x8#4 x y 0x4#4
  | .subReg x y => formatXYN 0x8#4 x y 0x5#4
  | .shrReg x y => formatXYN 0x8#4 x y 0x6#4
  | .subnReg x y => formatXYN 0x8#4 x y 0x7#4
  | .shlReg x y => formatXYN 0x8#4 x y 0xE#4
  | .sneReg x y => formatXYN 0x9#4 x y 0x0#4
  | .ldI nnn => formatNNN 0xA#4 nnn
  | .jpV0 nnn => formatNNN 0xB#4 nnn
  | .rnd x kk => formatXKK 0xC#4 x kk
  | .drw x y n => formatXYN 0xD#4 x y n
  | .skp x => formatXKK 0xE#4 x 0x9E#8
  | .sknp x => formatXKK 0xE#4 x 0xA1#8
  | .ldVxDT x => formatXKK 0xF#4 x 0x07#8
  | .ldVxK x => formatXKK 0xF#4 x 0x0A#8
  | .ldDTVx x => formatXKK 0xF#4 x 0x15#8
  | .ldSTVx x => formatXKK 0xF#4 x 0x18#8
  | .addIVx x => formatXKK 0xF#4 x 0x1E#8
  | .ldFVx x => formatXKK 0xF#4 x 0x29#8
  | .ldBVx x => formatXKK 0xF#4 x 0x33#8
  | .ldMemVx x => formatXKK 0xF#4 x 0x55#8
  | .ldVxMem x => formatXKK 0xF#4 x 0x65#8

/-- A word as the two bytes memory holds, high octet at the lower address (R51). -/
def bytesOfWord (w : Word) : List Byte := [w.extractLsb' 8 8, w.extractLsb' 0 8]

/-- An instruction as the two bytes memory holds. -/
def encodeBytes (i : Instr) : List Byte := bytesOfWord (encode i)

/-- The bytes of an instruction whose bits are `w`, numbered as spec/opcode_table.json numbers them: bit 0 is the least
significant bit of its one word; bits above `nbits` are 0 (log 22). -/
def tableBytes (nbits w : Nat) : List Byte := bytesOfWord (BitVec.ofNat 16 (w % 2 ^ nbits))

/-- The instruction the decoder reads from a table word, under the decided parameter. -/
def decodeTableWord (nbits w : Nat) : Option Instr :=
  match decodeBytes decidedConfig (tableBytes nbits w) with
  | .ok (i, _) => some i
  | .error _ => none

end Sys2Proof
end

