-- ==== Sys2Proof/Machine/State.lean ====
section
/-! DEFINITION. The state of the block: everything R20 to R33 names, as plain data, one field each, and the model's own
counter of free values. R11: "State is exactly the list in 10_state.md rules R20 to R33". -/

namespace Sys2Proof.Machine

/-- Main memory (R31 a, R50): pairs of an address below 4096 and a byte, addresses strictly rising, no pair holding
what an unlisted address reads as (`Memory.wf` in Machine/Memory.lean). -/
abbrev Memory := List Host.Cell

/-- The framebuffer (R31 b): 32 rows of 64 one-bit cells; cell `cx + 64 * cy` is bit `cx` of row `cy` (log 17). -/
abbrev Framebuffer := Vector (BitVec 64) 32

/-- The two fatal conditions (R220). They are the causes a Fault state records (R33). No meaning and no step answers
`Host.Outcome.fault`: R228 gives a fault the effect `status <- Fault(cause)`, so it is a next state (log 6). -/
inductive Fault where
  /-- Raised by CALL with `sp = 12` (R122, R221). Safe: the Fault state lets no claim read anything else. -/
  | stackOverflow
  /-- Raised by RET with `sp = 0` (R120, R222, the spec's decision D13). Safe, as above. -/
  | stackUnderflow
deriving DecidableEq, Repr

/-- Why an instruction has no meaning. -/
inductive Refusal where
  /-- Raised by `exec` for an instruction not modelled yet; no arm raises it now. Safe: nothing runs. -/
  | notModelled (mnemonic : String)
deriving DecidableEq, Repr

/-- The run status (R33). -/
inductive Status where
  | running
  | fault (cause : Fault)
deriving DecidableEq, Repr

/-- The machine's state (R20 to R33). -/
structure State where
  /-- `V[0]` to `V[15]`, the general registers; VF is `V[15]` (R20, R21). -/
  v : Vector Byte 16
  /-- `I`, the index register, stored unreduced (R26, log 12). -/
  i : Word
  /-- `pc`, the program counter, stored unreduced (R24, log 12). -/
  pc : Word
  /-- `stack[0]` to `stack[11]`, the return addresses (R27). -/
  stack : Vector Word 12
  /-- `sp`, the number of occupied stack entries, 0 to 12 (R28, log 16). -/
  sp : Fin 13
  /-- `DT`, the delay timer (R29). -/
  dt : Byte
  /-- `ST`, the sound timer (R30). -/
  st : Byte
  /-- `mem`, the 4096 cells of main memory (R31 a). -/
  mem : Memory
  /-- `fb`, the 2048 cells of the framebuffer (R31 b). -/
  fb : Framebuffer
  /-- `key`: bit `k` is 1 while hex key `k` is down (R31 c). -/
  key : BitVec 16
  /-- `wait`, the pending-key marker (R32). -/
  wait : Option Reg
  /-- `status`, the run status (R33). -/
  status : Status
  /-- The model's own: how many occasions have taken a free value (log 6, 9). Nothing in the spec reads it. -/
  freeCount : Nat
deriving DecidableEq, Repr

/-- The reset state (R36, R37, R260). `pc` is the source's; every other value is decided (log 4, 5, 27). -/
def State.reset : State where
  v := Vector.replicate 16 0
  i := 0
  pc := 0x200
  stack := Vector.replicate 12 0
  sp := 0
  dt := 0
  st := 0
  mem := []
  fb := Vector.replicate 32 0
  key := 0
  wait := none
  status := .running
  freeCount := 0

end Sys2Proof.Machine
end

