-- ==== Sys2Proof/Machine/Flags.lean ====
section
/-! DEFINITION. The flag computations of the seven instructions that write VF as a flag (R22). A flag is written as the
whole byte 0x00 or 0x01 (R21, R151). The seventh flag, collision, is computed along the draw (Machine/Display.lean). -/

namespace Sys2Proof.Machine

/-- `zext_8` of a flag bit (R21). -/
def flagByte (c : Bool) : Byte := if c then 1 else 0

/-- R146: the 9-bit sum. -/
def sum9 (a b : Byte) : BitVec 9 := a.setWidth 9 + b.setWidth 9

/-- R146: carry, bit 8 of the 9-bit sum. -/
def addFlag (a b : Byte) : Bool := (sum9 a b).getLsbD 8

/-- R147: 1 if Vx > Vy before the subtraction, unsigned and strict. -/
def subFlag (a b : Byte) : Bool := b < a

/-- R148: the bit shifted out, bit 0 of Vy. -/
def shrFlag (b : Byte) : Bool := b.getLsbD 0

/-- R149: 1 if Vy > the NEW Vx. -/
def subnFlag (b r : Byte) : Bool := r < b

/-- R150: the bit shifted out, bit 7 of Vy. -/
def shlFlag (b : Byte) : Bool := b.getLsbD 7

/-- R171: bit 12 of the 13-bit sum. -/
def indexFlag (t : BitVec 13) : Bool := t.getLsbD 12

end Sys2Proof.Machine
end

