-- ==== Sys2Proof/Machine/Memory.lean ====
section
/-! DEFINITION. Main memory as data: what an unlisted address reads as, reading and writing one cell, the canonical
form, and a whole memory given by a function. Addresses here are already reduced modulo 4096 (R14, R50); the
reduction itself is in Machine/Ops.lean. -/

namespace Sys2Proof.Machine

/-- What an address with no pair reads as (R37: "every other `mem` cell 0x00", decided; log 5). -/
def unlistedByte : Byte := 0

/-- The cell at an address (R14). -/
def Memory.read : Memory → Nat → Byte
  | [], _ => unlistedByte
  | (k, b) :: m, a => if k = a then b else Memory.read m a

/-- Set the cell at an address (R14), keeping the canonical form: writing `unlistedByte` removes the pair. -/
def Memory.write : Memory → Nat → Byte → Memory
  | [], a, b => if b = unlistedByte then [] else [(a, b)]
  | (k, c) :: m, a, b =>
    if a < k then if b = unlistedByte then (k, c) :: m else (a, b) :: (k, c) :: m
    else if a = k then if b = unlistedByte then m else (a, b) :: m
    else (k, c) :: Memory.write m a b

/-- Canonical from `lo` on: addresses at least `lo`, strictly rising, below 4096 (R50), no pair that says what an
unlisted address says anyway. -/
def Memory.wfFrom : Nat → Memory → Bool
  | _, [] => true
  | lo, (a, b) :: m => decide (lo ≤ a) && decide (a < 4096) && b != unlistedByte && Memory.wfFrom (a + 1) m

/-- The canonical form: equal memories are equal data. -/
def Memory.wf (m : Memory) : Bool := Memory.wfFrom 0 m

/-- The canonical memory that holds `f a` at each of the `n` addresses from `lo` on. -/
def Memory.tabulate (f : Nat → Byte) : Nat → Nat → Memory
  | 0, _ => []
  | n + 1, lo =>
    if f lo = unlistedByte then Memory.tabulate f n (lo + 1) else (lo, f lo) :: Memory.tabulate f n (lo + 1)

/-- The canonical memory that holds `f a` at every address `a` of the 4096. -/
def Memory.ofFn (f : Nat → Byte) : Memory := Memory.tabulate f 4096 0

end Sys2Proof.Machine
end

