-- ==== Sys2Proof/Machine/Operands.lean ====
section
/-! DEFINITION. The values an instruction computes from its fields and its latched operands: widenings, effective
addresses, the font address, the digits of LD B, key numbers, and the geometry of a sprite. -/

namespace Sys2Proof.Machine

/-- `zext_16` of a 12-bit address (R12, R73). -/
def zext16OfAddr (nnn : Addr) : Word := nnn.setWidth 16

/-- `zext_16` of a byte (R12). -/
def zext16OfByte (b : Byte) : Word := b.setWidth 16

/-- `zext_8` of a key number (R232). -/
def byteOfKey (k : Key) : Byte := BitVec.ofNat 8 k.val

/-- The address of the `k`-th byte of an operation through `I`, before its reduction modulo 4096
(43_index_memory.md, Addressing). -/
def indexAddress (i : Word) (k : Nat) : Nat := i.toNat + k

/-- FONT_BASE (R6). -/
def fontBase : Word := 0x0050

/-- R172: font_base + 5 * Vx, the whole 8-bit Vx, no mask (log 23). -/
def fontAddress (a : Byte) : Word := fontBase + 5 * zext16OfByte a

/-- R173: the hundreds digit. -/
def bcdHundreds (a : Byte) : Byte := a / 100

/-- R173: the tens digit. -/
def bcdTens (a : Byte) : Byte := a / 10 % 10

/-- R173: the ones digit. -/
def bcdOnes (a : Byte) : Byte := a % 10

/-- R171: the 13-bit sum of the low 12 bits of `I` and a byte. -/
def indexSum (i : Word) (a : Byte) : BitVec 13 := (i.extractLsb' 0 12).setWidth 13 + a.setWidth 13

/-- R201: the key a register's value names, modulo 16 (log 13). -/
def keyNumber (a : Byte) : Nat := a.toNat % 16

/-- R191: the origin column, Vx mod 64. -/
def originColumn (a : Byte) : Nat := a.toNat % 64

/-- R191: the origin row, Vy mod 32. -/
def originRow (b : Byte) : Nat := b.toNat % 32

/-- R15, R58: the cell index of column `cx`, row `cy`. -/
def fbIndex (cx cy : Nat) : Nat := (cx + 64 * cy) % 2048

end Sys2Proof.Machine
end

