-- ==== Sys2Proof/Machine/Ops.lean ====
section
/-! DEFINITION. The named operations over registers, memory, the call stack and the framebuffer that every meaning is
written with, entering a Fault state, and the only return from it. -/

namespace Sys2Proof.Machine

/-! Registers (R13, R16, R20). -/

/-- `V[x]`. -/
def State.getV (s : State) (x : Reg) : Byte := s.v[x.val]

/-- `V[x] <- b`. No register is hardwired (R20). -/
def State.setV (s : State) (x : Reg) (b : Byte) : State := { s with v := s.v.set x.val b }

/-- `I <- w`. -/
def State.setI (s : State) (w : Word) : State := { s with i := w }

/-- `pc <- w`. -/
def State.setPc (s : State) (w : Word) : State := { s with pc := w }

/-- `DT <- b`. -/
def State.setDT (s : State) (b : Byte) : State := { s with dt := b }

/-- `ST <- b`. -/
def State.setST (s : State) (b : Byte) : State := { s with st := b }

/-- `fb <- f`. -/
def State.setFb (s : State) (f : Framebuffer) : State := { s with fb := f }

/-- `key <- k`. -/
def State.setKey (s : State) (k : BitVec 16) : State := { s with key := k }

/-- `wait <- r`. -/
def State.setWait (s : State) (r : Option Reg) : State := { s with wait := r }

/-- The skip of R123 to R126, R201, R202: two more bytes when the condition holds. -/
def State.skipIf (s : State) (c : Bool) : State := if c then s.setPc (s.pc + 2) else s

/-! Memory (R14, R50): each access reduces its own address modulo 4096 and cannot fault. -/

/-- `MemRead(addr, 1)`. -/
def State.memRead (s : State) (addr : Nat) : Byte := Memory.read s.mem (addr % 4096)

/-- `MemWrite(addr, 1, b)`. -/
def State.memWrite (s : State) (addr : Nat) (b : Byte) : State :=
  { s with mem := Memory.write s.mem (addr % 4096) b }

/-! The call stack (R27, R28): CALL writes `stack[sp]` and increments; RET decrements and reads `stack[sp]`. -/

/-- Push a return address. CALL checks that there is room first (R122), so the bound at 12 never shows. -/
def State.push (s : State) (w : Word) : State :=
  { s with stack := s.stack.setIfInBounds s.sp.val w, sp := ⟨min (s.sp.val + 1) 12, by omega⟩ }

/-- The entry RET reads: `stack[sp - 1]` (R120). -/
def State.top (s : State) : Word := s.stack[s.sp.val - 1]'(by have := s.sp.isLt; omega)

/-- Drop the youngest entry; it stays in the array but is dead (R120). -/
def State.pop (s : State) : State := { s with sp := ⟨s.sp.val - 1, by have := s.sp.isLt; omega⟩ }

/-! The framebuffer (R15). -/

/-- Cell `p`. -/
def Framebuffer.cell (f : Framebuffer) (p : Nat) : Bool := (f[p % 2048 / 64]'(by omega)).getLsbD (p % 64)

/-- Set cell `p`. -/
def Framebuffer.setCell (f : Framebuffer) (p : Nat) (b : Bool) : Framebuffer :=
  let row := f[p % 2048 / 64]'(by omega)
  let bit := BitVec.twoPow 64 (p % 64)
  f.set (p % 2048 / 64) (if b then row ||| bit else row &&& ~~~bit) (by omega)

/-- `FbRead(cx, cy)`. -/
def fbRead (f : Framebuffer) (cx cy : Nat) : Bool := f.cell (fbIndex cx cy)

/-- `FbWrite(cx, cy, b)`. -/
def fbWrite (f : Framebuffer) (cx cy : Nat) (b : Bool) : Framebuffer := f.setCell (fbIndex cx cy) b

/-- Every cell 0 (R190). -/
def fbClear : Framebuffer := Vector.replicate 32 0

/-! Free values (log 6, 9). -/

/-- One free value has been taken. -/
def State.countFree (s : State) : State := { s with freeCount := s.freeCount + 1 }

/-- `rand()`: the next byte of the environment, under no law (R16, R200). -/
def State.randomByte (s : State) : Byte := Config.randomByte s.freeCount

/-! Entering a Fault state, and leaving it (R228, R229, R260). -/

/-- `raise Fault(cause)` (R16, R228): `status <- Fault(cause)`; "the values of all other state in a Fault state are
unspecified", so every other field is a free value (log 6). There is no handler, no vector and no saved pc. -/
def State.enterFault (s : State) (cause : Fault) : State where
  v := Config.faultV s.freeCount
  i := Config.faultI s.freeCount
  pc := Config.faultPc s.freeCount
  stack := Config.faultStack s.freeCount
  sp := Config.faultSp s.freeCount
  dt := Config.faultDT s.freeCount
  st := Config.faultST s.freeCount
  mem := Memory.ofFn (Config.faultMem s.freeCount)
  fb := Config.faultFb s.freeCount
  key := Config.faultKey s.freeCount
  wait := Config.faultWait s.freeCount
  status := .fault cause
  freeCount := s.freeCount + 1

/-- The `Reset` event (R260), the only way out of a Fault state (R229). The model's own counter goes on, so that a
random byte drawn after a reset is not one drawn before it (log 9). -/
def State.afterReset (s : State) : State := { State.reset with freeCount := s.freeCount }

end Sys2Proof.Machine
end

