-- ==== Sys2Proof/Machine/Alu.lean ====
section
/-! DEFINITION. Register load and ALU (42_alu.md). Operands are latched before any write, and writes happen in the
order the rule lists them, so that with x = F the later write remains (R110, log 10). -/

namespace Sys2Proof.Machine

/-- LD Vx, kk (R140). -/
def execLdImm (x : Reg) (kk : Byte) (s : State) : Host.Outcome State Fault Refusal :=
  .next (s.setV x kk)

/-- ADD Vx, kk (R141): the carry is dropped and VF is not written. -/
def execAddImm (x : Reg) (kk : Byte) (s : State) : Host.Outcome State Fault Refusal :=
  .next (s.setV x (s.getV x + kk))

/-- LD Vx, Vy (R142). -/
def execLdReg (x y : Reg) (s : State) : Host.Outcome State Fault Refusal :=
  .next (s.setV x (s.getV y))

/-- OR Vx, Vy (R143). -/
def execOrReg (x y : Reg) (s : State) : Host.Outcome State Fault Refusal :=
  .next (s.setV x (s.getV x ||| s.getV y))

/-- AND Vx, Vy (R144). -/
def execAndReg (x y : Reg) (s : State) : Host.Outcome State Fault Refusal :=
  .next (s.setV x (s.getV x &&& s.getV y))

/-- XOR Vx, Vy (R145). -/
def execXorReg (x y : Reg) (s : State) : Host.Outcome State Fault Refusal :=
  .next (s.setV x (s.getV x ^^^ s.getV y))

/-- ADD Vx, Vy (R146): the sum's low byte first, then the carry. -/
def execAddReg (x y : Reg) (s : State) : Host.Outcome State Fault Refusal :=
  let a := s.getV x
  let b := s.getV y
  .next ((s.setV x ((sum9 a b).setWidth 8)).setV vf (flagByte (addFlag a b)))

/-- SUB Vx, Vy (R147): the flag first, then the difference. -/
def execSubReg (x y : Reg) (s : State) : Host.Outcome State Fault Refusal :=
  let a := s.getV x
  let b := s.getV y
  .next ((s.setV vf (flagByte (subFlag a b))).setV x (a - b))

/-- SHR Vx, Vy (R148): the source is Vy (log 23); the shifted value first, then the bit shifted out. -/
def execShrReg (x y : Reg) (s : State) : Host.Outcome State Fault Refusal :=
  let b := s.getV y
  .next ((s.setV x (b >>> 1)).setV vf (flagByte (shrFlag b)))

/-- SUBN Vx, Vy (R149): the difference first, then the flag, which compares Vy with the new Vx (log 23). -/
def execSubnReg (x y : Reg) (s : State) : Host.Outcome State Fault Refusal :=
  let a := s.getV x
  let b := s.getV y
  let r := b - a
  .next ((s.setV x r).setV vf (flagByte (subnFlag b r)))

/-- SHL Vx, Vy (R150): the source is Vy (log 23); the shifted value first, then the bit shifted out. -/
def execShlReg (x y : Reg) (s : State) : Host.Outcome State Fault Refusal :=
  let b := s.getV y
  .next ((s.setV x (b <<< 1)).setV vf (flagByte (shlFlag b)))

end Sys2Proof.Machine
end

