-- ==== Sys2Proof/Machine/ControlFlow.lean ====
section
/-! DEFINITION. Control transfer (41_control_flow.md): RET, JP, CALL, JP V0, SE, SNE. Every meaning is a handler: its
state is the one the cycle's advance left, so `pc` is `pc0 + 2` (R102, log 18). -/

namespace Sys2Proof.Machine

/-- RET (R120). -/
def execRet (s : State) : Host.Outcome State Fault Refusal :=
  if s.sp = 0 then .next (s.enterFault .stackUnderflow) else .next (s.pop.setPc s.top)

/-- JP nnn (R121). -/
def execJp (nnn : Addr) (s : State) : Host.Outcome State Fault Refusal :=
  .next (s.setPc (zext16OfAddr nnn))

/-- CALL nnn (R122): the fault is detected before anything is pushed (R221). -/
def execCall (nnn : Addr) (s : State) : Host.Outcome State Fault Refusal :=
  if s.sp = 12 then .next (s.enterFault .stackOverflow) else .next ((s.push s.pc).setPc (zext16OfAddr nnn))

/-- JP V0, nnn (R127): always V0; the sum is stored unreduced. -/
def execJpV0 (nnn : Addr) (s : State) : Host.Outcome State Fault Refusal :=
  .next (s.setPc (zext16OfAddr nnn + zext16OfByte (s.getV 0)))

/-- SE Vx, kk (R123). -/
def execSeImm (x : Reg) (kk : Byte) (s : State) : Host.Outcome State Fault Refusal :=
  .next (s.skipIf (s.getV x == kk))

/-- SNE Vx, kk (R124). -/
def execSneImm (x : Reg) (kk : Byte) (s : State) : Host.Outcome State Fault Refusal :=
  .next (s.skipIf (s.getV x != kk))

/-- SE Vx, Vy (R125). -/
def execSeReg (x y : Reg) (s : State) : Host.Outcome State Fault Refusal :=
  .next (s.skipIf (s.getV x == s.getV y))

/-- SNE Vx, Vy (R126). -/
def execSneReg (x y : Reg) (s : State) : Host.Outcome State Fault Refusal :=
  .next (s.skipIf (s.getV x != s.getV y))

end Sys2Proof.Machine
end

