-- ==== Sys2Proof/Machine/Display.lean ====
section
/-! DEFINITION. The display (44_display.md): CLS and the sprite XOR engine. -/

namespace Sys2Proof.Machine

/-- CLS (R190). -/
def execCls (s : State) : Host.Outcome State Fault Refusal :=
  .next (s.setFb fbClear)

/-- A draw in progress: the framebuffer so far, and whether a collision has been met (R191). -/
structure Drawing where
  fb : Framebuffer
  hit : Bool
deriving DecidableEq, Repr

/-- A sprite bit of 1 on the cell (cx, cy): collide if the cell is lit, and flip it (R191). -/
def flipCell (d : Drawing) (cx cy : Nat) : Drawing where
  fb := fbWrite d.fb cx cy (!fbRead d.fb cx cy)
  hit := d.hit || fbRead d.fb cx cy

/-- The last `left` bits of one sprite row `sprite` at row `cy` (R191): bit `8 - left` of the loop is bit `left - 1` of
the byte, most significant first; past the right edge the rest of the row is abandoned. -/
def drawRowBits (sprite : Byte) (ox cy : Nat) : Nat → Drawing → Drawing
  | 0, d => d
  | left + 1, d =>
    let cx := ox + (7 - left)
    if 64 ≤ cx then d
    else drawRowBits sprite ox cy left (if sprite.getLsbD left then flipCell d cx cy else d)

/-- The last `left` rows of a sprite, from row `row` on (R191): past the bottom edge this and all later rows are
abandoned. Row `row` is read from `(I + row) mod 4096`. -/
def drawSpriteRows (s : State) (ox oy : Nat) : Nat → Nat → Drawing → Drawing
  | 0, _, d => d
  | left + 1, row, d =>
    if 32 ≤ oy + row then d
    else drawSpriteRows s ox oy left (row + 1)
      (drawRowBits (s.memRead (indexAddress s.i row)) ox (oy + row) 8 d)

/-- The whole of a draw of `n` rows on the state `s` (R191). -/
def drawSprite (s : State) (a b : Byte) (n : Nat) : Drawing :=
  drawSpriteRows s (originColumn a) (originRow b) n 0 { fb := s.fb, hit := false }

/-- DRW Vx, Vy, n (R191): the origin is latched before VF is written (log 10); VF ends as the collision flag. -/
def execDrw (x y : Reg) (n : Nibble) (s : State) : Host.Outcome State Fault Refusal :=
  let d := drawSprite s (s.getV x) (s.getV y) n.toNat
  .next ((s.setFb d.fb).setV vf (flagByte d.hit))

end Sys2Proof.Machine
end

