-- ==== Sys2Proof/Machine/IndexMemory.lean ====
section
/-! DEFINITION. The index register and memory (43_index_memory.md). -/

namespace Sys2Proof.Machine

/-- LD I, nnn (R170). -/
def execLdI (nnn : Addr) (s : State) : Host.Outcome State Fault Refusal :=
  .next (s.setI (zext16OfAddr nnn))

/-- ADD I, Vx (R171): `I` keeps bit 12 of the sum, and VF is that bit, 0 included (log 11). -/
def execAddIVx (x : Reg) (s : State) : Host.Outcome State Fault Refusal :=
  let t := indexSum s.i (s.getV x)
  .next ((s.setI (t.setWidth 16)).setV vf (flagByte (indexFlag t)))

/-- LD F, Vx (R172). -/
def execLdFVx (x : Reg) (s : State) : Host.Outcome State Fault Refusal :=
  .next (s.setI (fontAddress (s.getV x)))

/-- LD B, Vx (R173): hundreds, tens, ones at I, I + 1, I + 2; `I` is not changed. -/
def execLdBVx (x : Reg) (s : State) : Host.Outcome State Fault Refusal :=
  let a := s.getV x
  .next (((s.memWrite (indexAddress s.i 0) (bcdHundreds a)).memWrite (indexAddress s.i 1) (bcdTens a)).memWrite
    (indexAddress s.i 2) (bcdOnes a))

/-- The register with number `r`, for `r` below 16. -/
def regOfNat (r : Nat) : Reg := Fin.ofNat 16 r

/-- One round of the register dump: store `V[r]` at `I` and advance `I` (R174). -/
def State.dumpOne (s : State) (r : Reg) : State :=
  (s.memWrite (indexAddress s.i 0) (s.getV r)).setI (s.i + 1)

/-- The first `n` rounds of the register dump: V0, V1, ..., V(n-1) in that order (R174). -/
def State.dumpRegs (s : State) : Nat → State
  | 0 => s
  | r + 1 => (s.dumpRegs r).dumpOne (regOfNat r)

/-- LD [I], Vx (R174): `x` is the field, not the value of Vx (log 23); `x + 1` registers. -/
def execLdMemVx (x : Reg) (s : State) : Host.Outcome State Fault Refusal :=
  .next (s.dumpRegs (x.val + 1))

/-- One round of the register load: load `V[r]` from `I` and advance `I` (R175). -/
def State.loadOne (s : State) (r : Reg) : State :=
  (s.setV r (s.memRead (indexAddress s.i 0))).setI (s.i + 1)

/-- The first `n` rounds of the register load (R175). -/
def State.loadRegs (s : State) : Nat → State
  | 0 => s
  | r + 1 => (s.loadRegs r).loadOne (regOfNat r)

/-- LD Vx, [I] (R175). -/
def execLdVxMem (x : Reg) (s : State) : Host.Outcome State Fault Refusal :=
  .next (s.loadRegs (x.val + 1))

end Sys2Proof.Machine
end

