-- ==== Sys2Proof/Machine/TimersKeysRandom.lean ====
section
/-! DEFINITION. Random, keys and timers (45_timers_keys_random.md). -/

namespace Sys2Proof.Machine

/-- RND Vx, kk (R200): a fresh free byte under the mask (log 9). -/
def execRnd (x : Reg) (kk : Byte) (s : State) : Host.Outcome State Fault Refusal :=
  .next ((s.setV x (s.randomByte &&& kk)).countFree)

/-- Whether hex key `k` is down (R31 c). -/
def State.keyIsDown (s : State) (k : Nat) : Bool := s.key.getLsbD k

/-- SKP Vx (R201). -/
def execSkp (x : Reg) (s : State) : Host.Outcome State Fault Refusal :=
  .next (s.skipIf (s.keyIsDown (keyNumber (s.getV x))))

/-- SKNP Vx (R202). -/
def execSknp (x : Reg) (s : State) : Host.Outcome State Fault Refusal :=
  .next (s.skipIf (!s.keyIsDown (keyNumber (s.getV x))))

/-- LD Vx, DT (R203). -/
def execLdVxDT (x : Reg) (s : State) : Host.Outcome State Fault Refusal :=
  .next (s.setV x s.dt)

/-- LD DT, Vx (R204). -/
def execLdDTVx (x : Reg) (s : State) : Host.Outcome State Fault Refusal :=
  .next (s.setDT (s.getV x))

/-- LD ST, Vx (R205). -/
def execLdSTVx (x : Reg) (s : State) : Host.Outcome State Fault Refusal :=
  .next (s.setST (s.getV x))

/-- LD Vx, K (R206): set the marker and rewind `pc` to the instruction; it completes at once. The key event ends the
wait (`State.keyDown`, R232). -/
def execLdVxK (x : Reg) (s : State) : Host.Outcome State Fault Refusal :=
  .next ((s.setWait (some x)).setPc (s.pc - 2))

end Sys2Proof.Machine
end

