-- ==== Sys2Proof/Machine/Cycle.lean ====
section
/-! DEFINITION. The `Cycle` event (40_cycle_decode_dispatch.md): fetch, advance, decode, dispatch, and the report of the
unknown path; and placing an instruction where the next fetch finds it. -/

namespace Sys2Proof.Machine

/-- R101: the word at `pc`, high octet first, both addresses reduced modulo 4096. -/
def State.fetchWord (s : State) : Word :=
  wordOfBytes (s.memRead s.pc.toNat) (s.memRead (s.pc.toNat + 1))

/-- R102: `pc <- (pc + 2) mod 65536`, before the handler runs. -/
def State.advance (s : State) : State := s.setPc (s.pc + 2)

/-- R100: one cycle, under either reading of ALIAS_DECODE. In a Fault state it does nothing (R108). An unknown word
only advances `pc` (R106); its report is `cycleReport`. -/
def cycleWith (cfg : Config) (s : State) : Host.Outcome State Fault Refusal :=
  match s.status with
  | .fault _ => .next s
  | .running =>
    match decodeWord cfg s.fetchWord with
    | some i => exec i s.advance
    | none => .next s.advance

/-- R223: the report, with the word and the address it was fetched from (the model's choice, R220). It is an output
event and leaves no trace in the state (log 15). -/
structure Report where
  word : Word
  pc0 : Word
deriving DecidableEq, Repr

/-- The report the cycle from `s` emits, if any (R106, R108, R223). -/
def cycleReport (cfg : Config) (s : State) : Option Report :=
  match s.status with
  | .fault _ => none
  | .running =>
    match decodeWord cfg s.fetchWord with
    | some _ => none
    | none => some { word := s.fetchWord, pc0 := s.pc }

/-- Store bytes at consecutive addresses. -/
def State.placeBytes (s : State) (addr : Nat) : List Byte → State
  | [] => s
  | b :: bs => (s.memWrite addr b).placeBytes (addr + 1) bs

/-- The bytes of an instruction stored where the next cycle fetches, and the status at which a cycle fetches at all
(R100: "require status == Running"). -/
def State.placeAtPc (s : State) (bs : List Byte) : State :=
  { s.placeBytes s.pc.toNat bs with status := .running }

end Sys2Proof.Machine
end

