-- ==== Sys2Proof/Machine/Step.lean ====
section
/-! DEFINITION. One step of the machine is one `Cycle` event (R10, R100; log 3), under the decided parameter (R7). -/

namespace Sys2Proof.Machine

/-- R10: the interpreter "takes a step only when the host issues `Cycle`". -/
def step (s : State) : Host.Outcome State Fault Refusal := cycleWith decidedConfig s

/-- `s` with the instruction of a table word stored where `step` fetches next (log 21, 22). -/
def State.withFetchWord (s : State) (nbits w : Nat) : State := s.placeAtPc (tableBytes nbits w)

end Sys2Proof.Machine
end

