-- ==== Sys2Proof/Machine/HostEvents.lean ====
section
/-! DEFINITION. What the host can do to the block (R9, R226): each event atomic, applied one at a time, never inside a
cycle (R227). The sequence is the host's free choice, so it is an argument (log 26). -/

namespace Sys2Proof.Machine

/-- `DT <- DT - 1` unless it is 0 (R231). -/
def tickDown (b : Byte) : Byte := if b = 0 then 0 else b - 1

/-- R228: an event with no specified effect in a Fault state leaves it a Fault state with the same cause, every other
field a free value (log 7). -/
def State.whileRunning (s : State) (effect : State) : State :=
  match s.status with
  | .running => effect
  | .fault cause => s.enterFault cause

/-- `TimerTick` (R231). -/
def State.timerTick (s : State) : State :=
  s.whileRunning ((s.setDT (tickDown s.dt)).setST (tickDown s.st))

/-- The key state with key `k` down. -/
def keySet (keys : BitVec 16) (k : Key) : BitVec 16 := keys ||| BitVec.twoPow 16 k.val

/-- The key state with key `k` up. -/
def keyClear (keys : BitVec 16) (k : Key) : BitVec 16 := keys &&& ~~~BitVec.twoPow 16 k.val

/-- R232: the end of a key wait: the register the marker names takes the key's number, the marker is cleared, `pc`
moves past the instruction (log 14). -/
def State.endWait (s : State) (k : Key) : State :=
  match s.wait with
  | some r => ((s.setV r (byteOfKey k)).setWait none).setPc (s.pc + 2)
  | none => s

/-- `KeyDown(k)` (R232): no transition, no change (log 14). -/
def State.keyDown (s : State) (k : Key) : State :=
  s.whileRunning (if s.key.getLsbD k.val then s else (s.setKey (keySet s.key k)).endWait k)

/-- `KeyUp(k)` (R233). -/
def State.keyUp (s : State) (k : Key) : State := s.whileRunning (s.setKey (keyClear s.key k))

/-- `LoadMem(addr, byte)` (R236). In a Fault state the block is past its first cycle and the host has no such move; the
state is then as unspecified as after any other event (log 7, 20). -/
def State.loadMem (s : State) (addr : Nat) (b : Byte) : State := s.whileRunning (s.memWrite addr b)

/-- One host event (R226). -/
def hostEvent (cfg : Config) (e : HostEvent) (s : State) : Host.Outcome State Fault Refusal :=
  match e with
  | .reset => .next s.afterReset
  | .loadMem addr b => .next (s.loadMem addr b)
  | .cycle => cycleWith cfg s
  | .timerTick => .next s.timerTick
  | .keyDown k => .next (s.keyDown k)
  | .keyUp k => .next (s.keyUp k)
  | .readFramebuffer => .next s

/-- A sequence of host events, in the order the host chose (R227). -/
def hostRun (cfg : Config) : List HostEvent → State → Host.Outcome State Fault Refusal
  | [], s => .next s
  | e :: es, s =>
    match hostEvent cfg e s with
    | .next t => hostRun cfg es t
    | .fault r => .fault r
    | .refused r => .refused r

/-- What the block shows the host at an event (R9): the report of a cycle, or the cells it read (R235). -/
inductive Output where
  | report (r : Report)
  | cells (f : Framebuffer)
deriving DecidableEq, Repr

/-- The output of one host event (R223, R235). `status` and `wait` are readable at any time: they are fields. -/
def hostOutput (cfg : Config) (e : HostEvent) (s : State) : Option Output :=
  match e with
  | .cycle => (cycleReport cfg s).map .report
  | .readFramebuffer => some (.cells s.fb)
  | .reset => none
  | .loadMem _ _ => none
  | .timerTick => none
  | .keyDown _ => none
  | .keyUp _ => none

/-! Boot (R261): reset, the font copy, the program load. -/

/-- The 80 font bytes (R64): glyph 0 is the source's; glyphs 1 to F are general knowledge (log 19). -/
def fontTable : List Byte :=
  [0xF0, 0x90, 0x90, 0x90, 0xF0, 0x20, 0x60, 0x20, 0x20, 0x70, 0xF0, 0x10, 0xF0, 0x80, 0xF0, 0xF0, 0x10, 0xF0, 0x10, 0xF0] ++
  [0x90, 0x90, 0xF0, 0x10, 0x10, 0xF0, 0x80, 0xF0, 0x10, 0xF0, 0xF0, 0x80, 0xF0, 0x90, 0xF0, 0xF0, 0x10, 0x20, 0x40, 0x40] ++
  [0xF0, 0x90, 0xF0, 0x90, 0xF0, 0xF0, 0x90, 0xF0, 0x10, 0xF0, 0xF0, 0x90, 0xF0, 0x90, 0x90, 0xE0, 0x90, 0xE0, 0x90, 0xE0] ++
  [0xF0, 0x80, 0x80, 0x80, 0xF0, 0xE0, 0x90, 0x90, 0x90, 0xE0, 0xF0, 0x80, 0xF0, 0x80, 0xF0, 0xF0, 0x80, 0xF0, 0x80, 0x80]

/-- The `LoadMem` events that write bytes to consecutive addresses. -/
def loadEvents (addr : Nat) : List Byte → List HostEvent
  | [] => []
  | b :: bs => .loadMem addr b :: loadEvents (addr + 1) bs

/-- R261: the boot sequence for a program image: reset, font at 0x050, program at 0x200 (PROG_BASE, R6). -/
def bootEvents (rom : List Byte) : List HostEvent :=
  .reset :: (loadEvents 0x050 fontTable ++ loadEvents 0x200 rom)

end Sys2Proof.Machine
end

