-- ==== Sys2Proof/Machine/RunEnd.lean ====
section
/-! DEFINITION. The end of a run (R268: "A model must define "the end" for its claims"), as D33 suggests it: a jump to
itself, whose state on first arrival is the final one; or a fault; or the host issues no further event (log 29). -/

namespace Sys2Proof.Machine

/-- The block has arrived at a jump to itself, `1nnn` at address nnn (R268). `pc` is compared whole: a `pc` whose bits
15 to 12 are not 0 has not arrived yet, and one more cycle takes it there. -/
def State.atSelfJump (cfg : Config) (s : State) : Bool :=
  let here : Addr := s.pc.extractLsb' 0 12
  s.status == .running && s.pc == zext16OfAddr here && decodeWord cfg s.fetchWord == some (.jp here)

/-- The three ways a run ends (R268). -/
inductive RunEnd where
  /-- The program came to its end, in this final state. -/
  | selfJump (final : State)
  /-- The run went wrong; nothing but the cause can be read of the block (R228). -/
  | faulted (cause : Fault)
  /-- The host stopped issuing events before the program came to its end. -/
  | hostStopped (last : State)
deriving DecidableEq, Repr

/-- How the state stands to the end of its run: the end it is, or none if the run goes on as long as the host does. -/
def State.runEnd (cfg : Config) (s : State) : Option RunEnd :=
  match s.status with
  | .fault cause => some (.faulted cause)
  | .running => if s.atSelfJump cfg then some (.selfJump s) else none

/-- The end of the run that starts in `s` (the state the boot sequence leaves, R261) when the host issues these events:
at the first state that is an end, or where the events run out. `none` never occurs: no event answers a fault or a
refusal. -/
def runUntilEnd (cfg : Config) : List HostEvent → State → Option RunEnd
  | [], s => some ((s.runEnd cfg).getD (.hostStopped s))
  | e :: es, s =>
    match s.runEnd cfg with
    | some r => some r
    | none =>
      match hostEvent cfg e s with
      | .next t => runUntilEnd cfg es t
      | .fault _ => none
      | .refused _ => none

end Sys2Proof.Machine
end

