-- ==== Sys2Proof/Safety.lean ====
section
/-! DEFINITION. What counts as a safe run (R224, R228, R268), and the invariant of the machine (R35, R109). -/

namespace Sys2Proof.Machine

/-- R228: a run that faults has gone wrong; a safe state is a running one. -/
def State.safe (s : State) : Bool := s.status == .running

/-- A cycle that neither faults nor meets an unknown word (R224: the third way a cycle can end). -/
def cycleIsClean (cfg : Config) (s : State) : Bool :=
  s.safe && (cycleReport cfg s).isNone &&
    match cycleWith cfg s with
    | .next t => t.safe
    | .fault _ => false
    | .refused _ => false

/-- The next `k` cycles, with no other event between them, are clean. -/
def runIsClean (cfg : Config) : Nat → State → Bool
  | 0, s => s.safe
  | k + 1, s =>
    cycleIsClean cfg s &&
      match cycleWith cfg s with
      | .next t => runIsClean cfg k t
      | .fault _ => false
      | .refused _ => false

/-- R109: while the block runs with the marker set, `pc` still points at the LD Vr, K word that set it. -/
def State.waitPointsAtKeyWait (cfg : Config) (s : State) : Prop :=
  s.status = .running → ∀ r, s.wait = some r → decodeWord cfg s.fetchWord = some (.ldVxK r)

/-- The invariant: the memory is in its canonical form (every address below 4096, R50), and R109. The ranges
"0 ≤ sp ≤ 12" and "every framebuffer cell is 0 or 1" of R35 hold by the types of the fields. -/
def State.Inv (cfg : Config) (s : State) : Prop :=
  Memory.wf s.mem = true ∧ s.waitPointsAtKeyWait cfg

/-- Whether a draw of `n` rows at the origin of `a`, `b` lays a sprite bit of 1 on the on-screen cell (cx, cy): R191
read as a condition on the cell and not as a loop. The byte of the cell's row is at `(I + (cy - oy)) mod 4096`, and its
column is bit `7 - (cx - ox)`, most significant leftmost. -/
def State.spriteCovers (s : State) (a b : Byte) (n cx cy : Nat) : Bool :=
  decide (originRow b ≤ cy) && decide (cy < originRow b + n) &&
    (decide (originColumn a ≤ cx) && decide (cx < originColumn a + 8) &&
      (s.memRead (s.i.toNat + (cy - originRow b))).getLsbD (7 - (cx - originColumn a)))

end Sys2Proof.Machine
end

