-- ==== Sys2Proof/Certificates/Slice0/Obligations.lean ====
section
/-! DEFINITION. The statements for the provers, and the vocabulary of frames they are written in. Results are stated on
natural numbers and single bits, apart from the operations the meanings use. Memory statements assume the canonical
form (`Memory.wf`), an invariant stated below (CycleKeepsInvariant). -/

namespace Sys2Proof.Claims

open Sys2Proof.Machine

/-- The parts of the state besides the general registers. -/
inductive Part where
  | index | pc | callStack | delayTimer | soundTimer | memory | screen | keys | waitMarker | status | freeCount
deriving DecidableEq, Repr

/-- `t` has in this part what `s` has. Memory is compared by reading every address, the screen by reading every
cell. -/
def agreesOn (s t : State) : Part → Prop
  | .index => t.i = s.i
  | .pc => t.pc = s.pc
  | .callStack => t.sp = s.sp ∧ t.stack = s.stack
  | .delayTimer => t.dt = s.dt
  | .soundTimer => t.st = s.st
  | .memory => ∀ a, t.memRead a = s.memRead a
  | .screen => ∀ cx cy, cx < 64 → cy < 32 → fbRead t.fb cx cy = fbRead s.fb cx cy
  | .keys => t.key = s.key
  | .waitMarker => t.wait = s.wait
  | .status => t.status = s.status
  | .freeCount => t.freeCount = s.freeCount

/-- The frame: every register outside `regs` and every part outside `parts` is as before. -/
def frame (regs : List Reg) (parts : List Part) (s t : State) : Prop :=
  (∀ r, r ∉ regs → t.getV r = s.getV r) ∧ ∀ p, p ∉ parts → agreesOn s t p

/-- 1 for a condition that holds, 0 for one that does not (R12). -/
def bit (c : Prop) [Decidable c] : Nat := if c then 1 else 0

/-- The x field of an instruction that has one (R71). -/
def xField : Instr → Option Reg
  | .cls => none
  | .ret => none
  | .jp _ => none
  | .call _ => none
  | .ldI _ => none
  | .jpV0 _ => none
  | .seImm x _ => some x
  | .sneImm x _ => some x
  | .ldImm x _ => some x
  | .addImm x _ => some x
  | .rnd x _ => some x
  | .seReg x _ => some x
  | .ldReg x _ => some x
  | .orReg x _ => some x
  | .andReg x _ => some x
  | .xorReg x _ => some x
  | .addReg x _ => some x
  | .subReg x _ => some x
  | .shrReg x _ => some x
  | .subnReg x _ => some x
  | .shlReg x _ => some x
  | .sneReg x _ => some x
  | .drw x _ _ => some x
  | .skp x => some x
  | .sknp x => some x
  | .ldVxDT x => some x
  | .ldVxK x => some x
  | .ldDTVx x => some x
  | .ldSTVx x => some x
  | .addIVx x => some x
  | .ldFVx x => some x
  | .ldBVx x => some x
  | .ldMemVx x => some x
  | .ldVxMem x => some x

/-- The seven flag writers (R22). -/
def isFlagWriter (i : Instr) : Prop :=
  (∃ x y, i = .addReg x y ∨ i = .subReg x y ∨ i = .shrReg x y ∨ i = .subnReg x y ∨ i = .shlReg x y) ∨
    (∃ x, i = .addIVx x) ∨ ∃ x y n, i = .drw x y n

/-- CALL and RET. -/
def isCallOrRet (i : Instr) : Prop := i = .ret ∨ ∃ nnn, i = .call nnn

/-- The instructions whose rule writes `I` (R26). -/
def writesIndex (i : Instr) : Prop :=
  (∃ nnn, i = .ldI nnn) ∨ ∃ x, i = .addIVx x ∨ i = .ldFVx x ∨ i = .ldMemVx x ∨ i = .ldVxMem x

/-- The instructions whose rule writes `pc`: jumps, CALL and RET, skips, and the key wait (R25). -/
def redirectsPc (i : Instr) : Prop :=
  isCallOrRet i ∨ (∃ nnn, i = .jp nnn ∨ i = .jpV0 nnn) ∨ (∃ x kk, i = .seImm x kk ∨ i = .sneImm x kk) ∨
    (∃ x y, i = .seReg x y ∨ i = .sneReg x y) ∨ ∃ x, i = .skp x ∨ i = .sknp x ∨ i = .ldVxK x

/-- The registers an instruction's rule writes as its destination: Vx, or V0 to Vx for the register load (R20). The
flag written to VF (R22) is apart, see `isFlagWriter`. -/
def isDestination (i : Instr) (r : Reg) : Prop :=
  match i with
  | .cls => False
  | .ret => False
  | .jp _ => False
  | .call _ => False
  | .seImm _ _ => False
  | .sneImm _ _ => False
  | .seReg _ _ => False
  | .ldImm x _ => r = x
  | .addImm x _ => r = x
  | .ldReg x _ => r = x
  | .orReg x _ => r = x
  | .andReg x _ => r = x
  | .xorReg x _ => r = x
  | .addReg x _ => r = x
  | .subReg x _ => r = x
  | .shrReg x _ => r = x
  | .subnReg x _ => r = x
  | .shlReg x _ => r = x
  | .sneReg _ _ => False
  | .ldI _ => False
  | .jpV0 _ => False
  | .rnd x _ => r = x
  | .drw _ _ _ => False
  | .skp _ => False
  | .sknp _ => False
  | .ldVxDT x => r = x
  | .ldVxK _ => False
  | .ldDTVx _ => False
  | .ldSTVx _ => False
  | .addIVx _ => False
  | .ldFVx _ => False
  | .ldBVx _ => False
  | .ldMemVx _ => False
  | .ldVxMem x => r ≤ x

/-- The block runs and the word it fetches is a jump to the address pc holds: `1nnn` at address nnn (R268). -/
def isAtSelfJump (cfg : Config) (s : State) : Prop :=
  s.status = .running ∧ ∃ nnn : Addr, decodeWord cfg s.fetchWord = some (.jp nnn) ∧ s.pc.toNat = nnn.toNat

/-- The events `es` lead from `s` to a running state that is at no jump to itself. -/
def goesOn (cfg : Config) (es : List HostEvent) (s : State) : Prop :=
  ∃ t, hostRun cfg es s = .next t ∧ t.status = .running ∧ ¬isAtSelfJump cfg t

/-- Some first part of the events `es` leads from `s` to `t`, and every shorter part of them leaves the run going on:
`t` is the first arrival. -/
def arrivesFirst (cfg : Config) (es : List HostEvent) (s t : State) : Prop :=
  ∃ before after, es = before ++ after ∧ hostRun cfg before s = .next t ∧
    ∀ b c, before = b ++ c → c ≠ [] → goesOn cfg b s

/-- Two states that differ at most in bits 15 to 12 of `pc`, `I` and the stack entries (R24, R26). -/
structure SameUpToHighAddressBits (s s' : State) : Prop where
  registers : ∀ r, s'.getV r = s.getV r
  index : s'.i.toNat % 4096 = s.i.toNat % 4096
  pc : s'.pc.toNat % 4096 = s.pc.toNat % 4096
  stack : ∀ j : Fin 12, s'.stack[j].toNat % 4096 = s.stack[j].toNat % 4096
  rest : s'.sp = s.sp ∧ s'.dt = s.dt ∧ s'.st = s.st ∧ s'.mem = s.mem ∧ s'.fb = s.fb ∧ s'.key = s.key ∧
    s'.wait = s.wait ∧ s'.status = s.status ∧ s'.freeCount = s.freeCount

end Sys2Proof.Claims

open Sys2Proof Sys2Proof.Machine Sys2Proof.Claims

/-! Control transfer. -/

/-- R121. -/
def Obligations.JumpSetsPcToAddress : Prop :=
  ∀ (nnn : Addr) (s : State), ∃ t, exec (.jp nnn) s = .next t ∧ t.pc.toNat = nnn.toNat ∧ frame [] [.pc] s t

/-- R127. The sum is at most 0x10FE, so the wrap modulo 65536 never shows. -/
def Obligations.JumpWithOffsetAddsV0 : Prop :=
  ∀ (nnn : Addr) (s : State), ∃ t, exec (.jpV0 nnn) s = .next t ∧
    t.pc.toNat = (nnn.toNat + (s.getV 0).toNat) % 65536 ∧ frame [] [.pc] s t

/-- R122: with room, CALL pushes the advanced pc and jumps; on a full stack it raises Fault(StackOverflow). -/
def Obligations.CallPushesAdvancedPcOrOverflows : Prop :=
  ∀ (nnn : Addr) (s : State),
    (s.sp.val < 12 → ∃ t, exec (.call nnn) s = .next t ∧ t.sp.val = s.sp.val + 1 ∧
      (∀ j : Fin 12, t.stack[j] = if j.val = s.sp.val then s.pc else s.stack[j]) ∧
      t.pc.toNat = nnn.toNat ∧ frame [] [.pc, .callStack] s t) ∧
    (s.sp.val = 12 → ∃ t, exec (.call nnn) s = .next t ∧ t.status = .fault .stackOverflow)

/-- R120, with the spec's decision D13 for the empty stack (log 8): RET pops the youngest entry, all 16 bits; with an
empty stack it raises Fault(StackUnderflow). -/
def Obligations.RetPopsYoungestEntryOrUnderflows : Prop :=
  ∀ s : State,
    (∀ h : 0 < s.sp.val, ∃ t, exec .ret s = .next t ∧ t.sp.val = s.sp.val - 1 ∧
      t.pc = s.stack[s.sp.val - 1]'(by omega) ∧ t.stack = s.stack ∧ frame [] [.pc, .callStack] s t) ∧
    (s.sp.val = 0 → ∃ t, exec .ret s = .next t ∧ t.status = .fault .stackUnderflow)

/-- R123, R124. -/
def Obligations.SkipsCompareRegisterWithImmediate : Prop :=
  ∀ (x : Reg) (kk : Byte) (s : State),
    (∃ t, exec (.seImm x kk) s = .next t ∧
      t.pc.toNat = (s.pc.toNat + 2 * bit ((s.getV x).toNat = kk.toNat)) % 65536 ∧ frame [] [.pc] s t) ∧
    (∃ t, exec (.sneImm x kk) s = .next t ∧
      t.pc.toNat = (s.pc.toNat + 2 * bit ((s.getV x).toNat ≠ kk.toNat)) % 65536 ∧ frame [] [.pc] s t)

/-- R125, R126. -/
def Obligations.SkipsCompareTwoRegisters : Prop :=
  ∀ (x y : Reg) (s : State),
    (∃ t, exec (.seReg x y) s = .next t ∧
      t.pc.toNat = (s.pc.toNat + 2 * bit ((s.getV x).toNat = (s.getV y).toNat)) % 65536 ∧ frame [] [.pc] s t) ∧
    (∃ t, exec (.sneReg x y) s = .next t ∧
      t.pc.toNat = (s.pc.toNat + 2 * bit ((s.getV x).toNat ≠ (s.getV y).toNat)) % 65536 ∧ frame [] [.pc] s t)

/-- R201, R202, with the spec's decision D10 for Vx above 15 (log 13). -/
def Obligations.SkipsTestTheKeyNumberedByVx : Prop :=
  ∀ (x : Reg) (s : State),
    (∃ t, exec (.skp x) s = .next t ∧
      t.pc.toNat = (s.pc.toNat + 2 * bit (s.key.getLsbD ((s.getV x).toNat % 16) = true)) % 65536 ∧
      frame [] [.pc] s t) ∧
    (∃ t, exec (.sknp x) s = .next t ∧
      t.pc.toNat = (s.pc.toNat + 2 * bit (s.key.getLsbD ((s.getV x).toNat % 16) = false)) % 65536 ∧
      frame [] [.pc] s t)

/-- R128: CALL A, the instruction at A being RET, gives pc0 + 2 and changes nothing but the dead stack entry. -/
def Obligations.CallThenRetReturnsAfterTheCall : Prop :=
  ∀ (cfg : Config) (s : State) (a : Addr), s.status = .running → s.sp.val < 12 →
    decodeWord cfg s.fetchWord = some (.call a) →
    decodeWord cfg (s.memRead a.toNat ++ s.memRead (a.toNat + 1)) = some .ret →
    ∃ t u, cycleWith cfg s = .next t ∧ cycleWith cfg t = .next u ∧ u.pc = s.pc + 2 ∧ u.sp = s.sp ∧
      (∀ j : Fin 12, j.val ≠ s.sp.val → u.stack[j] = s.stack[j]) ∧ frame [] [.pc, .callStack] s u

/-! Register load and ALU. -/

/-- R140, R141, R142. -/
def Obligations.LoadsAndAddImmediate : Prop :=
  ∀ (x y : Reg) (kk : Byte) (s : State),
    (∃ t, exec (.ldImm x kk) s = .next t ∧ t.getV x = kk ∧ frame [x] [] s t) ∧
    (∃ t, exec (.addImm x kk) s = .next t ∧ (t.getV x).toNat = ((s.getV x).toNat + kk.toNat) % 256 ∧
      frame [x] [] s t) ∧
    (∃ t, exec (.ldReg x y) s = .next t ∧ t.getV x = s.getV y ∧ frame [x] [] s t)

/-- R143, R144, R145: bit by bit, and no flag. -/
def Obligations.BitwiseOperationsChangeNoFlag : Prop :=
  ∀ (x y : Reg) (s : State),
    (∃ t, exec (.orReg x y) s = .next t ∧
      (∀ j < 8, (t.getV x).getLsbD j = true ↔ (s.getV x).getLsbD j = true ∨ (s.getV y).getLsbD j = true) ∧
      frame [x] [] s t) ∧
    (∃ t, exec (.andReg x y) s = .next t ∧
      (∀ j < 8, (t.getV x).getLsbD j = true ↔ (s.getV x).getLsbD j = true ∧ (s.getV y).getLsbD j = true) ∧
      frame [x] [] s t) ∧
    (∃ t, exec (.xorReg x y) s = .next t ∧
      (∀ j < 8, (t.getV x).getLsbD j = true ↔ (s.getV x).getLsbD j ≠ (s.getV y).getLsbD j) ∧
      frame [x] [] s t)

/-- R146, with the spec's decision D6 (log 10): with x = F the carry remains; with y = F the addend is the old VF. -/
def Obligations.AddWritesSumThenCarry : Prop :=
  ∀ (x y : Reg) (s : State), ∃ t, exec (.addReg x y) s = .next t ∧
    (x ≠ vf → (t.getV x).toNat = ((s.getV x).toNat + (s.getV y).toNat) % 256) ∧
    (t.getV vf).toNat = bit (255 < (s.getV x).toNat + (s.getV y).toNat) ∧ frame [x, vf] [] s t

/-- R147, with the spec's decision D6 (log 10): with x = F the difference remains. -/
def Obligations.SubWritesFlagThenDifference : Prop :=
  ∀ (x y : Reg) (s : State), ∃ t, exec (.subReg x y) s = .next t ∧
    (t.getV x).toNat = ((s.getV x).toNat + 256 - (s.getV y).toNat) % 256 ∧
    (x ≠ vf → (t.getV vf).toNat = bit ((s.getV y).toNat < (s.getV x).toNat)) ∧ frame [x, vf] [] s t

/-- R148, with the spec's decision D6 (log 10): the source is Vy, the flag its bit 0. -/
def Obligations.ShiftRightHalvesVy : Prop :=
  ∀ (x y : Reg) (s : State), ∃ t, exec (.shrReg x y) s = .next t ∧
    (x ≠ vf → (t.getV x).toNat = (s.getV y).toNat / 2) ∧
    (t.getV vf).toNat = (s.getV y).toNat % 2 ∧ frame [x, vf] [] s t

/-- R149, with the spec's decisions D6, D7 (log 10, 23): the flag compares the latched Vy with the new Vx. -/
def Obligations.ReverseSubtractFlagsAgainstNewVx : Prop :=
  ∀ (x y : Reg) (s : State), ∃ t, exec (.subnReg x y) s = .next t ∧
    (x ≠ vf → (t.getV x).toNat = ((s.getV y).toNat + 256 - (s.getV x).toNat) % 256) ∧
    (t.getV vf).toNat =
      bit (((s.getV y).toNat + 256 - (s.getV x).toNat) % 256 < (s.getV y).toNat) ∧ frame [x, vf] [] s t

/-- R150, with the spec's decision D6 (log 10): the source is Vy, the flag its bit 7. -/
def Obligations.ShiftLeftDoublesVy : Prop :=
  ∀ (x y : Reg) (s : State), ∃ t, exec (.shlReg x y) s = .next t ∧
    (x ≠ vf → (t.getV x).toNat = 2 * (s.getV y).toNat % 256) ∧
    (t.getV vf).toNat = (s.getV y).toNat / 128 ∧ frame [x, vf] [] s t

/-- R149, derived there, with the spec's decisions D6, D7 (log 10, 23): SUBN's flag differs from the conventional
no-borrow flag in exactly two cases. -/
def Obligations.ReverseSubtractFlagDiffersInTwoCases : Prop :=
  ∀ (x y : Reg) (s : State), ∃ t, exec (.subnReg x y) s = .next t ∧
    ((t.getV vf).toNat ≠ bit ((s.getV x).toNat < (s.getV y).toNat) ↔
      ((s.getV x).toNat = 0 ∧ 0 < (s.getV y).toNat) ∨
        ((s.getV x).toNat = (s.getV y).toNat ∧ 0 < (s.getV y).toNat))

/-! Index register and memory. -/

/-- R170. -/
def Obligations.LoadIndexSetsAddress : Prop :=
  ∀ (nnn : Addr) (s : State), ∃ t, exec (.ldI nnn) s = .next t ∧ t.i.toNat = nnn.toNat ∧ frame [] [.index] s t

/-- R171, with the spec's decisions D6, D8 (log 10, 11): `I` is masked to 12 bits first and keeps bit 12 of the sum. -/
def Obligations.AddToIndexFlagsTwelveBitOverflow : Prop :=
  ∀ (x : Reg) (s : State), ∃ t, exec (.addIVx x) s = .next t ∧
    t.i.toNat = s.i.toNat % 4096 + (s.getV x).toNat ∧
    (t.getV vf).toNat = bit (4095 < s.i.toNat % 4096 + (s.getV x).toNat) ∧ frame [vf] [.index] s t

/-- R172, with the spec's decision D11 (log 23): the whole Vx, no mask. -/
def Obligations.FontAddressIsBasePlusFiveVx : Prop :=
  ∀ (x : Reg) (s : State), ∃ t, exec (.ldFVx x) s = .next t ∧ t.i.toNat = 80 + 5 * (s.getV x).toNat ∧
    frame [] [.index] s t

/-- R173: three digits at I, I + 1, I + 2, each address modulo 4096; every other byte and `I` as before. -/
def Obligations.BcdStoresThreeDigits : Prop :=
  ∀ (x : Reg) (s : State), Memory.wf s.mem = true → ∃ t, exec (.ldBVx x) s = .next t ∧
    (t.memRead s.i.toNat).toNat = (s.getV x).toNat / 100 ∧
    (t.memRead (s.i.toNat + 1)).toNat = (s.getV x).toNat / 10 % 10 ∧
    (t.memRead (s.i.toNat + 2)).toNat = (s.getV x).toNat % 10 ∧
    (∀ a, (∀ k < 3, a % 4096 ≠ (s.i.toNat + k) % 4096) → t.memRead a = s.memRead a) ∧
    frame [] [.memory] s t

/-- R174, with the spec's decision D12 (log 23): registers V0 to Vx at I, I + 1, ...; I advances by x + 1. -/
def Obligations.RegisterDumpStoresV0ToVx : Prop :=
  ∀ (x : Reg) (s : State), Memory.wf s.mem = true → ∃ t, exec (.ldMemVx x) s = .next t ∧
    (∀ r : Reg, r ≤ x → t.memRead (s.i.toNat + r.val) = s.getV r) ∧
    (∀ a, (∀ k < x.val + 1, a % 4096 ≠ (s.i.toNat + k) % 4096) → t.memRead a = s.memRead a) ∧
    t.i.toNat = (s.i.toNat + x.val + 1) % 65536 ∧ frame [] [.index, .memory] s t

/-- R175, with the spec's decision D12 (log 23): registers V0 to Vx, by index, from I, I + 1, ...; I advances by x + 1;
memory is not changed. -/
def Obligations.RegisterLoadReadsV0ToVx : Prop :=
  ∀ (x : Reg) (s : State), ∃ t, exec (.ldVxMem x) s = .next t ∧
    (∀ r : Reg, t.getV r = if r ≤ x then s.memRead (s.i.toNat + r.val) else s.getV r) ∧
    t.i.toNat = (s.i.toNat + x.val + 1) % 65536 ∧ (∀ p, p ≠ .index → agreesOn s t p)

/-- R176: a dump, then a load of the same registers from the same `I` out of a memory that reads as the dump left it,
whatever the registers hold by then; both advance `I` alike. -/
def Obligations.DumpThenLoadRestoresRegisters : Prop :=
  ∀ (k : Reg) (s : State), Memory.wf s.mem = true → ∃ t, exec (.ldMemVx k) s = .next t ∧
    t.i.toNat = (s.i.toNat + k.val + 1) % 65536 ∧
    ∀ u : State, u.i = s.i → (∀ a, u.memRead a = t.memRead a) →
      ∃ w, exec (.ldVxMem k) u = .next w ∧ (∀ r : Reg, r ≤ k → w.getV r = s.getV r) ∧ w.i = t.i

/-- R63: a store into the instruction stream is what the next fetch finds, octet by octet. -/
def Obligations.StoreIsSeenByTheNextFetch : Prop :=
  ∀ (x r : Reg) (s : State), Memory.wf s.mem = true → r ≤ x → ∃ t, exec (.ldMemVx x) s = .next t ∧
    (t.pc.toNat % 4096 = (s.i.toNat + r.val) % 4096 → t.fetchWord.toNat / 256 = (s.getV r).toNat) ∧
    ((t.pc.toNat + 1) % 4096 = (s.i.toNat + r.val) % 4096 → t.fetchWord.toNat % 256 = (s.getV r).toNat)

/-! Display. -/

/-- R190. -/
def Obligations.ClearScreenDarkensEveryCell : Prop :=
  ∀ s : State, ∃ t, exec .cls s = .next t ∧ (∀ cx cy, cx < 64 → cy < 32 → fbRead t.fb cx cy = false) ∧
    frame [] [.screen] s t

/-- R191, with the spec's decisions D6, D31 (log 10, 24): the on-screen cells under sprite bits of 1 are flipped and no
others (clipped, never wrapped), and VF is 1 exactly when such a cell was lit, else 0. -/
def Obligations.DrawFlipsCoveredCellsAndFlagsCollision : Prop :=
  ∀ (x y : Reg) (n : Nibble) (s : State), ∃ t, exec (.drw x y n) s = .next t ∧
    (∀ cx cy, cx < 64 → cy < 32 →
      (fbRead t.fb cx cy = fbRead s.fb cx cy ↔ s.spriteCovers (s.getV x) (s.getV y) n.toNat cx cy = false)) ∧
    ((∃ cx cy, cx < 64 ∧ cy < 32 ∧ s.spriteCovers (s.getV x) (s.getV y) n.toNat cx cy = true ∧
      fbRead s.fb cx cy = true) → (t.getV vf).toNat = 1) ∧
    ((∀ cx cy, cx < 64 → cy < 32 → s.spriteCovers (s.getV x) (s.getV y) n.toNat cx cy = true →
      fbRead s.fb cx cy = false) → (t.getV vf).toNat = 0) ∧
    frame [vf] [.screen] s t

/-- R192: the same draw twice restores the framebuffer, and VF then says whether a covered cell was dark before. -/
def Obligations.DrawTwiceRestoresTheScreen : Prop :=
  ∀ (x y : Reg) (n : Nibble) (s : State), x ≠ vf → y ≠ vf →
    ∃ t u, exec (.drw x y n) s = .next t ∧ exec (.drw x y n) t = .next u ∧ u.fb = s.fb ∧
      ((u.getV vf).toNat = 1 ↔ ∃ cx cy, cx < 64 ∧ cy < 32 ∧
        s.spriteCovers (s.getV x) (s.getV y) n.toNat cx cy = true ∧ fbRead s.fb cx cy = false)

/-! Random, keys and timers. -/

/-- R200, with the spec's decision D22 (log 9): the fresh byte under the mask, whatever the byte is. -/
def Obligations.RandomByteIsMasked : Prop :=
  ∀ (x : Reg) (kk : Byte) (s : State), ∃ t, exec (.rnd x kk) s = .next t ∧
    (∀ j < 8, (t.getV x).getLsbD j = true ↔
      kk.getLsbD j = true ∧ (Config.randomByte s.freeCount).getLsbD j = true) ∧
    t.freeCount = s.freeCount + 1 ∧ frame [x] [.freeCount] s t

/-- R203, R204, R205. -/
def Obligations.TimerRegisterCopies : Prop :=
  ∀ (x : Reg) (s : State),
    (∃ t, exec (.ldVxDT x) s = .next t ∧ t.getV x = s.dt ∧ frame [x] [] s t) ∧
    (∃ t, exec (.ldDTVx x) s = .next t ∧ t.dt = s.getV x ∧ frame [] [.delayTimer] s t) ∧
    (∃ t, exec (.ldSTVx x) s = .next t ∧ t.st = s.getV x ∧ frame [] [.soundTimer] s t)

/-- R206, the instruction's own part: the marker is set and pc goes back to the instruction. -/
def Obligations.KeyWaitSetsMarkerAndRewinds : Prop :=
  ∀ (x : Reg) (s : State), ∃ t, exec (.ldVxK x) s = .next t ∧ t.wait = some x ∧
    t.pc.toNat = (s.pc.toNat + 65534) % 65536 ∧ frame [] [.pc, .waitMarker] s t

/-! The cycle. -/

/-- R51, R101. -/
def Obligations.FetchIsBigEndian : Prop :=
  ∀ s : State, s.fetchWord.toNat =
    256 * (Memory.read s.mem (s.pc.toNat % 4096)).toNat + (Memory.read s.mem ((s.pc.toNat + 1) % 4096)).toNat

/-- R100, R102: a running cycle is the decoded instruction's handler on the state whose pc is 2 further, modulo 65536,
and nothing else different. -/
def Obligations.CycleRunsTheDecodedInstruction : Prop :=
  ∀ (cfg : Config) (s : State) (i : Instr), s.status = .running → decodeWord cfg s.fetchWord = some i →
    cycleReport cfg s = none ∧
    ∃ u, cycleWith cfg s = exec i u ∧ u.pc.toNat = (s.pc.toNat + 2) % 65536 ∧ frame [] [.pc] s u ∧
      (cfg = decidedConfig → step s = exec i u)

/-- R106, R223: an unknown word advances pc by 2, changes nothing else, and is reported. That the report also carries
the word's address is the model's choice, which R220 leaves to it (log 15). -/
def Obligations.UnknownWordOnlyAdvancesPc : Prop :=
  ∀ (cfg : Config) (s : State), s.status = .running → decodeWord cfg s.fetchWord = none →
    cycleReport cfg s = some { word := s.fetchWord, pc0 := s.pc } ∧
    ∃ t, cycleWith cfg s = .next t ∧ t.pc.toNat = (s.pc.toNat + 2) % 65536 ∧ frame [] [.pc] s t

/-- R108, the spec's decision D14 (log 6). -/
def Obligations.CycleInFaultStateDoesNothing : Prop :=
  ∀ (cfg : Config) (s : State) (c : Fault), s.status = .fault c →
    cycleWith cfg s = .next s ∧ cycleReport cfg s = none ∧ step s = .next s

/-- R224: a cycle always answers a next state, and it leaves the block running except for CALL on a full and RET on an
empty stack. -/
def Obligations.CycleEndsNormallyOrInOneOfTwoFaults : Prop :=
  ∀ (cfg : Config) (s : State), s.status = .running → ∃ t, cycleWith cfg s = .next t ∧
    (t.status = .running ∨
      (t.status = .fault .stackOverflow ∧ s.sp.val = 12 ∧
        ∃ nnn, decodeWord cfg s.fetchWord = some (.call nnn)) ∨
      (t.status = .fault .stackUnderflow ∧ s.sp.val = 0 ∧ decodeWord cfg s.fetchWord = some .ret))

/-- R224, the third way a cycle can end: a cycle is clean (Safety.lean: no fault and no report) exactly when the block
runs, the word is an instruction, a CALL finds room and a RET finds an entry. -/
def Obligations.CycleIsCleanWhenNothingGoesWrong : Prop :=
  ∀ (cfg : Config) (s : State), cycleIsClean cfg s = true ↔
    s.status = .running ∧ ∃ i, decodeWord cfg s.fetchWord = some i ∧
      ((∃ nnn, i = .call nnn) → s.sp.val < 12) ∧ (i = .ret → 0 < s.sp.val)

/-- R111: a handler changes only the state its rule names, part by part, from a running state to a running state (after
a fault all other state is unspecified, R228); and no handler but CALL and RET changes `status`. The counter of free
values is the model's own (log 9). -/
def Obligations.HandlersTouchOnlyTheirState : Prop :=
  ∀ (i : Instr) (s : State), s.status = .running → ∃ t, exec i s = .next t ∧
    (¬isCallOrRet i → t.status = .running) ∧
    (t.status = .running →
      (¬isFlagWriter i → xField i ≠ some vf → t.getV vf = s.getV vf) ∧
      (∀ r, ¬isDestination i r → ¬(r = vf ∧ isFlagWriter i) → t.getV r = s.getV r) ∧
      (¬writesIndex i → t.i = s.i) ∧
      (¬redirectsPc i → t.pc = s.pc) ∧
      t.key = s.key ∧
      ((∀ x, i ≠ .ldVxK x) → t.wait = s.wait) ∧
      (¬isCallOrRet i → t.sp = s.sp ∧ t.stack = s.stack) ∧
      ((∀ x, i ≠ .ldDTVx x) → t.dt = s.dt) ∧
      ((∀ x, i ≠ .ldSTVx x) → t.st = s.st) ∧
      (i ≠ .cls → (∀ x y n, i ≠ .drw x y n) → t.fb = s.fb) ∧
      ((∀ x, i ≠ .ldBVx x) → (∀ x, i ≠ .ldMemVx x) → t.mem = s.mem) ∧
      ((∀ x kk, i ≠ .rnd x kk) → t.freeCount = s.freeCount))

/-- R109, the spec's decision D18 (log 14): with the marker set and pc at the word that set it, a cycle changes
nothing. -/
def Obligations.CycleWhileWaitingChangesNothing : Prop :=
  ∀ (cfg : Config) (s : State) (r : Reg), s.Inv cfg → s.status = .running → s.wait = some r →
    cycleWith cfg s = .next s

/-- R268, R121: a jump to itself is a fixed point; and the end of a run, as the spec's convention D33 has it (log 29), is
the first arrival at one, or a fault before that, or else wherever the host stopped. -/
def Obligations.JumpToItselfIsAFixedPoint : Prop :=
  (∀ (cfg : Config) (s : State) (nnn : Addr), s.status = .running →
    decodeWord cfg s.fetchWord = some (.jp nnn) → s.pc.toNat = nnn.toNat → cycleWith cfg s = .next s) ∧
  ∀ (cfg : Config) (es : List HostEvent) (s : State), ∃ e, runUntilEnd cfg es s = some e ∧
    (∀ t, e = .selfJump t ↔ arrivesFirst cfg es s t ∧ isAtSelfJump cfg t) ∧
    (∀ c, e = .faulted c ↔ ∃ t, arrivesFirst cfg es s t ∧ t.status = .fault c) ∧
    (∀ t, e = .hostStopped t ↔ hostRun cfg es s = .next t ∧ ∀ b c, es = b ++ c → goesOn cfg b s)

/-- R24, R26, with the spec's decision D9 (log 12): bits 15 to 12 of pc, I and the stack entries are never observable by
a program. -/
def Obligations.HighAddressBitsAreUnobservable : Prop :=
  ∀ (cfg : Config) (s s' : State), SameUpToHighAddressBits s s' →
    ∃ t t', cycleWith cfg s = .next t ∧ cycleWith cfg s' = .next t' ∧ SameUpToHighAddressBits t t'

/-! Host events. -/

/-- R231: each timer falls by one and stops at 0 (the subtraction on naturals has floor 0); no output. -/
def Obligations.TimerTickDecrementsToFloorZero : Prop :=
  ∀ (cfg : Config) (s : State), s.status = .running → hostOutput cfg .timerTick s = none ∧
    ∃ t, hostEvent cfg .timerTick s = .next t ∧
      t.dt.toNat = s.dt.toNat - 1 ∧ t.st.toNat = s.st.toNat - 1 ∧ frame [] [.delayTimer, .soundTimer] s t

/-- R232, with the spec's decisions D16, D17 (log 14): no transition, no change; a transition sets the key bit; and it
ends a wait: the named register takes the key's number, the marker is cleared, pc moves on by 2. -/
def Obligations.KeyDownSetsKeyAndEndsWait : Prop :=
  ∀ (cfg : Config) (s : State) (k : Key), s.status = .running →
    (s.key.getLsbD k.val = true → hostEvent cfg (.keyDown k) s = .next s) ∧
    (s.key.getLsbD k.val = false → ∃ t, hostEvent cfg (.keyDown k) s = .next t ∧
      (∀ j : Key, t.key.getLsbD j.val = true ↔ j = k ∨ s.key.getLsbD j.val = true) ∧
      (s.wait = none → frame [] [.keys] s t) ∧
      (∀ r, s.wait = some r → (t.getV r).toNat = k.val ∧ t.wait = none ∧
        t.pc.toNat = (s.pc.toNat + 2) % 65536 ∧ frame [r] [.keys, .waitMarker, .pc] s t))

/-- R233. -/
def Obligations.KeyUpClearsOnlyTheKey : Prop :=
  ∀ (cfg : Config) (s : State) (k : Key), s.status = .running → ∃ t, hostEvent cfg (.keyUp k) s = .next t ∧
    (∀ j : Key, t.key.getLsbD j.val = true ↔ j ≠ k ∧ s.key.getLsbD j.val = true) ∧ frame [] [.keys] s t

/-- R36. -/
def Obligations.ResetStartsAtAddress0x200 : Prop := State.reset.pc.toNat = 512 ∧ core.reset = State.reset

/-- R260, the spec's decision D19 (log 4, 5, 27): the reset event from any state, a faulted one included. -/
def Obligations.ResetEventPutsEveryPartAtItsResetValue : Prop :=
  ∀ (cfg : Config) (s : State), ∃ t, hostEvent cfg .reset s = .next t ∧ t.pc.toNat = 512 ∧
    (∀ r, t.getV r = 0) ∧ t.i = 0 ∧ t.sp.val = 0 ∧ t.dt = 0 ∧ t.st = 0 ∧ (∀ a, t.memRead a = 0) ∧
    (∀ cx cy, cx < 64 → cy < 32 → fbRead t.fb cx cy = false) ∧ (∀ k : Key, t.key.getLsbD k.val = false) ∧
    t.wait = none ∧ t.status = .running

/-- R33, R229, the spec's decision D14 (log 6, 7): no event but Reset leaves a Fault state or changes its cause. -/
def Obligations.OnlyResetLeavesAFaultState : Prop :=
  ∀ (cfg : Config) (s : State) (c : Fault) (e : HostEvent), s.status = .fault c → ∃ t, hostEvent cfg e s = .next t ∧
    (t.status = .running ↔ e = .reset) ∧ (e ≠ .reset → t.status = .fault c)

/-- R261, R236: after the boot sequence of a program that fits, the font and the program are in memory, pc is at the
program's first byte. Zeros elsewhere and glyphs 1 to F are not the source's (log 5, 19). -/
def Obligations.BootPlacesFontAndProgram : Prop :=
  ∀ (cfg : Config) (rom : List Byte) (s : State), romWellFormed rom = true →
    ∃ t, hostRun cfg (bootEvents rom) s = .next t ∧ t.pc.toNat = 512 ∧ t.status = .running ∧
      (∀ j (h : j < rom.length), t.memRead (512 + j) = rom[j]) ∧
      (∀ j (h : j < fontTable.length), t.memRead (80 + j) = fontTable[j]) ∧
      (∀ a, a < 80 ∨ (160 ≤ a ∧ a < 512) ∨ (512 + rom.length ≤ a ∧ a < 4096) → t.memRead a = 0)

/-- R228 (log 6): a Fault state says nothing of the machine it came from: every state that enters it on the same
occasion enters the same one, whatever its registers, memory, screen and keys held. -/
def Obligations.FaultStateCarriesNothingOver : Prop :=
  ∀ (nnn : Addr) (s s' : State), s.freeCount = s'.freeCount →
    (s.sp.val = 12 → s'.sp.val = 12 → exec (.call nnn) s = exec (.call nnn) s') ∧
    (s.sp.val = 0 → s'.sp.val = 0 → exec .ret s = exec .ret s')

/-! Encoding. The codes and the field positions are those the spec supplies from general knowledge (log 2). -/

/-- R75, R76: decoding the canonical word of any instruction gives it back, under both readings of ALIAS_DECODE, and so
does decoding its bytes. -/
def Obligations.DecodeOfEncodeIsIdentity : Prop :=
  ∀ (cfg : Config) (i : Instr), decodeWord cfg (encode i) = some i ∧
    ∀ rest, decodeBytes cfg (encodeBytes i ++ rest) = .ok (i, rest)

/-- R75, R105: the dispatch of R74 and the match and mask rows of R75 name the same row for every word. -/
def Obligations.DispatchAgreesWithOpcodeMap : Prop :=
  ∀ (cfg : Config) (w : Word) (r : Row), r ∈ opcodeTable →
    (r.selects cfg w = true ↔ ∃ i, decodeWord cfg w = some i ∧ i.row = r)

/-- R77: the words that are unknown under each reading of ALIAS_DECODE, by arithmetic on the word. -/
def Obligations.UnknownWordsAreTheNamedSets : Prop :=
  (∀ w : Word, decodeWord { aliasDecode := true } w = none ↔
    (w.toNat / 4096 = 0 ∧ w.toNat % 16 ≠ 0 ∧ w.toNat % 16 ≠ 14) ∨
    (w.toNat / 4096 = 8 ∧ 8 ≤ w.toNat % 16 ∧ w.toNat % 16 ≠ 14) ∨
    (w.toNat / 4096 = 14 ∧ w.toNat % 256 ≠ 0x9E ∧ w.toNat % 256 ≠ 0xA1) ∨
    (w.toNat / 4096 = 15 ∧ w.toNat % 256 ∉ [0x07, 0x0A, 0x15, 0x18, 0x1E, 0x29, 0x33, 0x55, 0x65])) ∧
  ∀ w : Word, decodeWord { aliasDecode := false } w = none ↔
    decodeWord { aliasDecode := true } w = none ∨
    (w.toNat / 4096 = 0 ∧ w.toNat ≠ 0x00E0 ∧ w.toNat ≠ 0x00EE) ∨
    ((w.toNat / 4096 = 5 ∨ w.toNat / 4096 = 9) ∧ w.toNat % 16 ≠ 0)

/-- R76: the two readings differ only in the four aliased instructions, and only by refusing words that are not their
canonical spelling. -/
def Obligations.ReadingsOfAliasDecodeAgreeOnCanonicalWords : Prop :=
  ∀ (w : Word) (i : Instr),
    (decodeWord { aliasDecode := false } w = some i → decodeWord { aliasDecode := true } w = some i) ∧
    (decodeWord { aliasDecode := true } w = some i →
      decodeWord { aliasDecode := false } w = some i ∨
        (w ≠ encode i ∧ (i = .cls ∨ i = .ret ∨ ∃ x y, i = .seReg x y ∨ i = .sneReg x y)))

/-- R71, R103. -/
def Obligations.FieldsAreTheNamedSlices : Prop :=
  ∀ w : Word, (fieldsOf w).op.toNat = w.toNat / 4096 ∧ (fieldsOf w).x.val = w.toNat / 256 % 16 ∧
    (fieldsOf w).y.val = w.toNat / 16 % 16 ∧ (fieldsOf w).n.toNat = w.toNat % 16 ∧
    (fieldsOf w).kk.toNat = w.toNat % 256 ∧ (fieldsOf w).nnn.toNat = w.toNat % 4096

/-- Words of 95_test_vectors.md, programs P1 to P5 and section 2.1, decode to the instructions printed beside them. -/
def Obligations.TestVectorWordsDecode : Prop :=
  decodeWord decidedConfig 0x6105 = some (.ldImm 1 0x05) ∧ decodeWord decidedConfig 0x8014 = some (.addReg 0 1) ∧
  decodeWord decidedConfig 0x3100 = some (.seImm 1 0x00) ∧ decodeWord decidedConfig 0x1204 = some (.jp 0x204) ∧
  decodeWord decidedConfig 0xA300 = some (.ldI 0x300) ∧ decodeWord decidedConfig 0xF265 = some (.ldVxMem 2) ∧
  decodeWord decidedConfig 0x00EE = some .ret ∧ decodeWord decidedConfig 0xD125 = some (.drw 1 2 5) ∧
  decodeWord decidedConfig 0xF30A = some (.ldVxK 3) ∧ decodeWord decidedConfig 0x5115 = some (.seReg 1 1) ∧
  decodeWord { aliasDecode := false } 0x5115 = none ∧ decodeWord decidedConfig 0x8128 = none

/-- The instruction placed where the next step fetches is the one the next step runs, wherever pc stands (the model's
placing, log 21, 22). -/
def Obligations.PlacedInstructionIsTheOneStepRuns : Prop :=
  ∀ (i : Instr) (s : State), Memory.wf s.mem = true →
    decodeTableWord 16 (encode i).toNat = some i ∧
    step (s.withFetchWord 16 (encode i).toNat) = exec i (s.withFetchWord 16 (encode i).toNat).advance

/-! Invariants. -/

/-- The invariant holds at reset. -/
def Obligations.ResetSatisfiesInvariant : Prop := ∀ cfg : Config, State.reset.Inv cfg

/-- Every cycle keeps the invariant: memory canonical (every listed address below 4096, R50), and while the marker is
set pc still points at the LD Vr, K word that set it (R109). -/
def Obligations.CycleKeepsInvariant : Prop :=
  ∀ (cfg : Config) (s : State), s.Inv cfg → ∃ t, cycleWith cfg s = .next t ∧ t.Inv cfg

/-- Every host event keeps the invariant; LoadMem while no wait is pending, as it is before the first cycle (R236). -/
def Obligations.HostEventsKeepInvariant : Prop :=
  ∀ (cfg : Config) (s : State) (e : HostEvent), s.Inv cfg →
    ((∀ a b, e ≠ .loadMem a b) ∨ s.wait = none ∨ s.status ≠ .running) →
    ∃ t, hostEvent cfg e s = .next t ∧ t.Inv cfg

/-- Every session that is well formed (no LoadMem after a cycle, R236), however the host interleaves its events
(R227), ends in a state that has the invariant. -/
def Obligations.WellFormedSessionsKeepInvariant : Prop :=
  ∀ (cfg : Config) (es : List HostEvent), eventsWellFormed false es = true →
    ∃ t, hostRun cfg es State.reset = .next t ∧ t.Inv cfg

/-- Two canonical memories that read alike at every address are the same data (the model's form, log 5). -/
def Obligations.CanonicalMemoriesThatReadAlikeAreEqual : Prop :=
  ∀ m m' : Memory, Memory.wf m = true → Memory.wf m' = true → (∀ a < 4096, Memory.read m a = Memory.read m' a) →
    m = m'
end

