-- ==== Sys2Proof/Laws/Decode.lean ====
section
/-! SUPPORT. The slices of each encoding format (R71, R72), the value of a fetched word (R51), and the bytes of a word. -/

namespace Sys2Proof

theorem slice_toNat (w : Word) (lo width : Nat) : (slice w lo width).toNat = w.toNat / 2 ^ lo % 2 ^ width := by
  simp [slice, Nat.shiftRight_eq_div_pow]

/-- The value of a concatenation: the high part scaled past the low part (R12). -/
theorem append_toNat {m n : Nat} (a : BitVec m) (b : BitVec n) : (a ++ b).toNat = a.toNat * 2 ^ n + b.toNat := by
  rw [BitVec.toNat_append, Nat.shiftLeft_eq, Nat.mul_comm, ← Nat.two_pow_add_eq_or_of_lt b.isLt, Nat.mul_comm]

@[simp] theorem nibbleOfReg_toNat (x : Reg) : (nibbleOfReg x).toNat = x.val := rfl

@[simp] theorem regOfNibble_nibbleOfReg (x : Reg) : regOfNibble (nibbleOfReg x) = x := rfl

theorem formatNNN_toNat (op : Nibble) (nnn : Addr) : (formatNNN op nnn).toNat = op.toNat * 4096 + nnn.toNat :=
  append_toNat op nnn

theorem formatXKK_toNat (op : Nibble) (x : Reg) (kk : Byte) :
    (formatXKK op x kk).toNat = op.toNat * 4096 + x.val * 256 + kk.toNat := by
  have h := append_toNat (op ++ nibbleOfReg x) kk
  rw [append_toNat op (nibbleOfReg x), nibbleOfReg_toNat] at h
  have e : (formatXKK op x kk).toNat = (op ++ nibbleOfReg x ++ kk).toNat := rfl
  omega

theorem formatXYN_toNat (op : Nibble) (x y : Reg) (low : Nibble) :
    (formatXYN op x y low).toNat = op.toNat * 4096 + x.val * 256 + y.val * 16 + low.toNat := by
  have h := append_toNat (op ++ nibbleOfReg x ++ nibbleOfReg y) low
  rw [append_toNat (op ++ nibbleOfReg x) (nibbleOfReg y), append_toNat op (nibbleOfReg x), nibbleOfReg_toNat,
    nibbleOfReg_toNat] at h
  have e : (formatXYN op x y low).toNat = (op ++ nibbleOfReg x ++ nibbleOfReg y ++ low).toNat := rfl
  omega

/-- The six slices of an NNN word that its instruction uses. -/
theorem fieldsOf_formatNNN (op : Nibble) (nnn : Addr) :
    (fieldsOf (formatNNN op nnn)).op = op ∧ (fieldsOf (formatNNN op nnn)).nnn = nnn := by
  have h := formatNNN_toNat op nnn
  have h1 := op.isLt
  have h2 := nnn.isLt
  refine ⟨BitVec.eq_of_toNat_eq ?_, BitVec.eq_of_toNat_eq ?_⟩ <;> simp only [fieldsOf, slice_toNat] <;> omega

/-- The slices of an XKK word that its instruction uses. -/
theorem fieldsOf_formatXKK (op : Nibble) (x : Reg) (kk : Byte) :
    (fieldsOf (formatXKK op x kk)).op = op ∧ (fieldsOf (formatXKK op x kk)).x = x ∧
      (fieldsOf (formatXKK op x kk)).kk = kk := by
  have h := formatXKK_toNat op x kk
  have h1 := op.isLt
  have h2 := x.isLt
  have h3 := kk.isLt
  refine ⟨BitVec.eq_of_toNat_eq ?_, ?_, BitVec.eq_of_toNat_eq ?_⟩
  · simp only [fieldsOf, slice_toNat]; omega
  · have : slice (formatXKK op x kk) 8 4 = nibbleOfReg x := by
      apply BitVec.eq_of_toNat_eq
      rw [slice_toNat, nibbleOfReg_toNat]
      omega
    simp [fieldsOf, this]
  · simp only [fieldsOf, slice_toNat]; omega

/-- The slices of an XY or XYN word that its instruction uses. -/
theorem fieldsOf_formatXYN (op : Nibble) (x y : Reg) (low : Nibble) :
    (fieldsOf (formatXYN op x y low)).op = op ∧ (fieldsOf (formatXYN op x y low)).x = x ∧
      (fieldsOf (formatXYN op x y low)).y = y ∧ (fieldsOf (formatXYN op x y low)).n = low := by
  have h := formatXYN_toNat op x y low
  have h1 := op.isLt
  have h2 := x.isLt
  have h3 := y.isLt
  have h4 := low.isLt
  have hx : slice (formatXYN op x y low) 8 4 = nibbleOfReg x := by
    apply BitVec.eq_of_toNat_eq
    rw [slice_toNat, nibbleOfReg_toNat]
    omega
  have hy : slice (formatXYN op x y low) 4 4 = nibbleOfReg y := by
    apply BitVec.eq_of_toNat_eq
    rw [slice_toNat, nibbleOfReg_toNat]
    omega
  refine ⟨BitVec.eq_of_toNat_eq ?_, by simp [fieldsOf, hx], by simp [fieldsOf, hy], BitVec.eq_of_toNat_eq ?_⟩ <;>
    simp only [fieldsOf, slice_toNat] <;> omega

/-- R51: the first byte is the high octet. -/
theorem wordOfBytes_toNat (hi lo : Byte) : (wordOfBytes hi lo).toNat = hi.toNat * 256 + lo.toNat :=
  append_toNat hi lo

/-- Storing a word as two bytes and fetching it gives the word back. -/
theorem wordOfBytes_bytesOfWord (w : Word) : wordOfBytes (w.extractLsb' 8 8) (w.extractLsb' 0 8) = w := by
  apply BitVec.eq_of_toNat_eq
  rw [wordOfBytes_toNat]
  simp only [BitVec.extractLsb'_toNat, Nat.shiftRight_eq_div_pow]
  have := w.isLt
  omega

/-! A word under each mask of the opcode map (R75) is the format with the fields the mask names. -/

theorem and_F000 (w : Word) : w &&& 0xF000#16 = formatNNN (slice w 12 4) 0#12 := by
  apply BitVec.eq_of_getLsbD_eq
  intro j hj
  simp only [formatNNN, slice, BitVec.getLsbD_and, BitVec.getLsbD_append, BitVec.getLsbD_extractLsb']
  interval_cases j <;> simp

theorem and_F00F (w : Word) : w &&& 0xF00F#16 = formatXYN (slice w 12 4) 0 0 (slice w 0 4) := by
  apply BitVec.eq_of_getLsbD_eq
  intro j hj
  simp only [formatXYN, slice, nibbleOfReg, BitVec.getLsbD_and, BitVec.getLsbD_append, BitVec.getLsbD_extractLsb']
  interval_cases j <;> simp

theorem and_F0FF (w : Word) : w &&& 0xF0FF#16 = formatXKK (slice w 12 4) 0 (slice w 0 8) := by
  apply BitVec.eq_of_getLsbD_eq
  intro j hj
  simp only [formatXKK, slice, nibbleOfReg, BitVec.getLsbD_and, BitVec.getLsbD_append, BitVec.getLsbD_extractLsb']
  interval_cases j <;> simp

theorem and_FFFF (w : Word) : w &&& 0xFFFF#16 = w := BitVec.and_allOnes

/-! Each format under the masks of its rows. -/

theorem formatNNN_and_F000 (op : Nibble) (nnn : Addr) : formatNNN op nnn &&& 0xF000#16 = formatNNN op 0#12 := by
  rw [and_F000, show slice (formatNNN op nnn) 12 4 = op from (fieldsOf_formatNNN op nnn).1]

theorem formatXKK_and_F000 (op : Nibble) (x : Reg) (kk : Byte) :
    formatXKK op x kk &&& 0xF000#16 = formatNNN op 0#12 := by
  rw [and_F000, show slice (formatXKK op x kk) 12 4 = op from (fieldsOf_formatXKK op x kk).1]

theorem formatXKK_and_F0FF (op : Nibble) (x : Reg) (kk : Byte) :
    formatXKK op x kk &&& 0xF0FF#16 = formatXKK op 0 kk := by
  rw [and_F0FF, show slice (formatXKK op x kk) 12 4 = op from (fieldsOf_formatXKK op x kk).1,
    show slice (formatXKK op x kk) 0 8 = kk from (fieldsOf_formatXKK op x kk).2.2]

theorem formatXYN_and_F000 (op : Nibble) (x y : Reg) (low : Nibble) :
    formatXYN op x y low &&& 0xF000#16 = formatNNN op 0#12 := by
  rw [and_F000, show slice (formatXYN op x y low) 12 4 = op from (fieldsOf_formatXYN op x y low).1]

theorem formatXYN_and_F00F (op : Nibble) (x y : Reg) (low : Nibble) :
    formatXYN op x y low &&& 0xF00F#16 = formatXYN op 0 0 low := by
  rw [and_F00F, show slice (formatXYN op x y low) 12 4 = op from (fieldsOf_formatXYN op x y low).1,
    show slice (formatXYN op x y low) 0 4 = low from (fieldsOf_formatXYN op x y low).2.2.2]

theorem formatNNN_inj {op op' : Nibble} {a a' : Addr} : formatNNN op a = formatNNN op' a' ↔ op = op' ∧ a = a' := by
  constructor
  · intro h
    have h1 := fieldsOf_formatNNN op a
    have h2 := fieldsOf_formatNNN op' a'
    rw [h] at h1
    exact ⟨h1.1.symm.trans h2.1, h1.2.symm.trans h2.2⟩
  · rintro ⟨rfl, rfl⟩
    rfl

theorem formatXKK_inj {op op' : Nibble} {x x' : Reg} {k k' : Byte} :
    formatXKK op x k = formatXKK op' x' k' ↔ op = op' ∧ x = x' ∧ k = k' := by
  constructor
  · intro h
    have h1 := fieldsOf_formatXKK op x k
    have h2 := fieldsOf_formatXKK op' x' k'
    rw [h] at h1
    exact ⟨h1.1.symm.trans h2.1, h1.2.1.symm.trans h2.2.1, h1.2.2.symm.trans h2.2.2⟩
  · rintro ⟨rfl, rfl, rfl⟩
    rfl

theorem formatXYN_inj {op op' : Nibble} {x x' y y' : Reg} {n n' : Nibble} :
    formatXYN op x y n = formatXYN op' x' y' n' ↔ op = op' ∧ x = x' ∧ y = y' ∧ n = n' := by
  constructor
  · intro h
    have h1 := fieldsOf_formatXYN op x y n
    have h2 := fieldsOf_formatXYN op' x' y' n'
    rw [h] at h1
    exact ⟨h1.1.symm.trans h2.1, h1.2.1.symm.trans h2.2.1, h1.2.2.1.symm.trans h2.2.2.1,
      h1.2.2.2.symm.trans h2.2.2.2⟩
  · rintro ⟨rfl, rfl, rfl, rfl⟩
    rfl

end Sys2Proof
end

