-- ==== Sys2Proof/Laws/Memory.lean ====
section
/-! SUPPORT. The laws of memory: read after write, the canonical form kept by every operation, and equal memories are
equal data. -/

namespace Sys2Proof.Machine

@[simp] theorem Memory.read_nil (a : Nat) : Memory.read [] a = unlistedByte := rfl

theorem Memory.read_cons (k : Nat) (b : Byte) (m : Memory) (a : Nat) :
    Memory.read ((k, b) :: m) a = if k = a then b else Memory.read m a := rfl

theorem Memory.wfFrom_cons (lo a : Nat) (b : Byte) (m : Memory) :
    Memory.wfFrom lo ((a, b) :: m) = true ↔
      lo ≤ a ∧ a < 4096 ∧ b ≠ unlistedByte ∧ Memory.wfFrom (a + 1) m = true := by
  simp [Memory.wfFrom, and_assoc]

theorem Memory.wfFrom_mono {lo lo' : Nat} {m : Memory} (h : Memory.wfFrom lo m = true) (hle : lo' ≤ lo) :
    Memory.wfFrom lo' m = true := by
  cases m with
  | nil => rfl
  | cons p m =>
    obtain ⟨k, b⟩ := p
    rw [Memory.wfFrom_cons] at h ⊢
    exact ⟨by omega, h.2⟩

/-- Below the first address of a canonical memory nothing is listed. -/
theorem Memory.read_below {lo : Nat} {m : Memory} (h : Memory.wfFrom lo m = true) {a : Nat} (ha : a < lo) :
    Memory.read m a = unlistedByte := by
  induction m generalizing lo with
  | nil => rfl
  | cons p m ih =>
    obtain ⟨k, b⟩ := p
    rw [Memory.wfFrom_cons] at h
    rw [Memory.read_cons, if_neg (by omega)]
    exact ih h.2.2.2 (by omega)

/-- Read after write (R14, R60): the written cell holds the byte, every other cell what it held. -/
theorem Memory.read_write {m : Memory} (h : Memory.wf m = true) (a c : Nat) (b : Byte) :
    Memory.read (Memory.write m a b) c = if c = a then b else Memory.read m c := by
  suffices H : ∀ lo, Memory.wfFrom lo m = true →
      Memory.read (Memory.write m a b) c = if c = a then b else Memory.read m c from H 0 h
  clear h
  induction m with
  | nil =>
    intro lo _
    by_cases hb : b = unlistedByte
    · simp [Memory.write, hb]
    · by_cases hc : c = a
      · simp [Memory.write, hb, Memory.read_cons, hc]
      · simp [Memory.write, hb, Memory.read_cons, hc, Ne.symm hc]
  | cons p m ih =>
    obtain ⟨k, d⟩ := p
    intro lo h
    rw [Memory.wfFrom_cons] at h
    have hbelow : ∀ e, e < k + 1 → Memory.read m e = unlistedByte := fun e he => Memory.read_below h.2.2.2 he
    simp only [Memory.write]
    split
    · next hak =>
      split
      · next hb =>
        by_cases hc : c = a
        · subst hc
          simp [Memory.read_cons, if_neg (show k ≠ c by omega), hbelow c (by omega), hb]
        · simp [hc]
      · by_cases hc : c = a
        · simp [Memory.read_cons, hc]
        · rw [Memory.read_cons, if_neg (fun he => hc he.symm), if_neg hc]
    · split
      · next hak =>
        subst hak
        split
        · next hb =>
          by_cases hc : c = a
          · subst hc
            simp [hbelow c (by omega), hb]
          · simp [hc, Memory.read_cons, if_neg (Ne.symm hc)]
        · by_cases hc : c = a
          · simp [Memory.read_cons, hc]
          · simp [Memory.read_cons, hc, Ne.symm hc]
      · next hak =>
        by_cases hc : c = k
        · simp [Memory.read_cons, hc, if_neg (show k ≠ a by omega)]
        · rw [Memory.read_cons, if_neg (Ne.symm hc), ih _ h.2.2.2, Memory.read_cons, if_neg (Ne.symm hc)]

/-- A write keeps the canonical form. -/
theorem Memory.wf_write {m : Memory} (h : Memory.wf m = true) {a : Nat} (ha : a < 4096) (b : Byte) :
    Memory.wf (Memory.write m a b) = true := by
  suffices H : ∀ lo, Memory.wfFrom lo m = true → lo ≤ a → Memory.wfFrom lo (Memory.write m a b) = true from
    H 0 h (by omega)
  clear h
  induction m with
  | nil =>
    intro lo _ hlo
    by_cases hb : b = unlistedByte <;> simp [Memory.write, hb, Memory.wfFrom, hlo, ha]
  | cons p m ih =>
    obtain ⟨k, d⟩ := p
    intro lo h hlo
    rw [Memory.wfFrom_cons] at h
    simp only [Memory.write]
    split
    · next hak =>
      split
      · exact (Memory.wfFrom_cons ..).2 h
      · next hb =>
        exact (Memory.wfFrom_cons ..).2 ⟨hlo, ha, hb, (Memory.wfFrom_cons ..).2 ⟨by omega, h.2⟩⟩
    · split
      · next hak =>
        subst hak
        split
        · exact Memory.wfFrom_mono h.2.2.2 (by omega)
        · next hb => exact (Memory.wfFrom_cons ..).2 ⟨hlo, ha, hb, h.2.2.2⟩
      · exact (Memory.wfFrom_cons ..).2 ⟨h.1, h.2.1, h.2.2.1, ih _ h.2.2.2 (by omega)⟩

/-- A tabulated memory is canonical. -/
theorem Memory.wfFrom_tabulate (f : Nat → Byte) (n lo : Nat) (hle : lo + n ≤ 4096) :
    Memory.wfFrom lo (Memory.tabulate f n lo) = true := by
  induction n generalizing lo with
  | zero => rfl
  | succ n ih =>
    simp only [Memory.tabulate]
    split
    · exact Memory.wfFrom_mono (ih (lo + 1) (by omega)) (by omega)
    · next hb => exact (Memory.wfFrom_cons ..).2 ⟨by omega, by omega, hb, ih (lo + 1) (by omega)⟩

theorem Memory.wf_ofFn (f : Nat → Byte) : Memory.wf (Memory.ofFn f) = true :=
  Memory.wfFrom_tabulate f 4096 0 (by omega)

theorem Memory.read_tabulate (f : Nat → Byte) (n lo a : Nat) :
    Memory.read (Memory.tabulate f n lo) a = if lo ≤ a ∧ a < lo + n then f a else unlistedByte := by
  induction n generalizing lo with
  | zero => simp [Memory.tabulate, show ¬(lo ≤ a ∧ a < lo) by omega]
  | succ n ih =>
    simp only [Memory.tabulate]
    split
    · next hb =>
      rw [ih]
      by_cases hlo : lo = a
      · subst hlo
        simp [hb]
      · simp only [show (lo + 1 ≤ a ∧ a < lo + 1 + n) ↔ (lo ≤ a ∧ a < lo + (n + 1)) by omega]
    · rw [Memory.read_cons, ih]
      by_cases hlo : lo = a
      · subst hlo
        simp
      · simp only [if_neg hlo, show (lo + 1 ≤ a ∧ a < lo + 1 + n) ↔ (lo ≤ a ∧ a < lo + (n + 1)) by omega]

/-- A memory given by a function holds that function. -/
theorem Memory.read_ofFn (f : Nat → Byte) (a : Nat) (ha : a < 4096) : Memory.read (Memory.ofFn f) a = f a := by
  rw [Memory.ofFn, Memory.read_tabulate, if_pos (by omega)]

/-- In a canonical memory nothing is listed from 4096 on. -/
theorem Memory.read_above {lo : Nat} {m : Memory} (h : Memory.wfFrom lo m = true) {a : Nat} (ha : 4096 ≤ a) :
    Memory.read m a = unlistedByte := by
  induction m generalizing lo with
  | nil => rfl
  | cons p m ih =>
    obtain ⟨k, b⟩ := p
    rw [Memory.wfFrom_cons] at h
    rw [Memory.read_cons, if_neg (by omega)]
    exact ih h.2.2.2

end Sys2Proof.Machine
end

