-- ==== Sys2Proof/Laws/State.lean ====
section
/-! SUPPORT. One lemma per field per update of the state, true by unfolding, and what reading a register gives after a
register write: no later proof unfolds a record update. -/

namespace Sys2Proof.Machine

section setV
variable (s : State) (x : Reg) (b : Byte)
@[simp] theorem State.setV_v : (s.setV x b).v = s.v.set x.val b := rfl
@[simp] theorem State.setV_i : (s.setV x b).i = s.i := rfl
@[simp] theorem State.setV_pc : (s.setV x b).pc = s.pc := rfl
@[simp] theorem State.setV_stack : (s.setV x b).stack = s.stack := rfl
@[simp] theorem State.setV_sp : (s.setV x b).sp = s.sp := rfl
@[simp] theorem State.setV_dt : (s.setV x b).dt = s.dt := rfl
@[simp] theorem State.setV_st : (s.setV x b).st = s.st := rfl
@[simp] theorem State.setV_mem : (s.setV x b).mem = s.mem := rfl
@[simp] theorem State.setV_fb : (s.setV x b).fb = s.fb := rfl
@[simp] theorem State.setV_key : (s.setV x b).key = s.key := rfl
@[simp] theorem State.setV_wait : (s.setV x b).wait = s.wait := rfl
@[simp] theorem State.setV_status : (s.setV x b).status = s.status := rfl
@[simp] theorem State.setV_freeCount : (s.setV x b).freeCount = s.freeCount := rfl
@[simp] theorem State.setV_memRead (c : Nat) : (s.setV x b).memRead c = s.memRead c := rfl
end setV

section setI
variable (s : State) (w : Word)
@[simp] theorem State.setI_v : (s.setI w).v = s.v := rfl
@[simp] theorem State.setI_i : (s.setI w).i = w := rfl
@[simp] theorem State.setI_pc : (s.setI w).pc = s.pc := rfl
@[simp] theorem State.setI_stack : (s.setI w).stack = s.stack := rfl
@[simp] theorem State.setI_sp : (s.setI w).sp = s.sp := rfl
@[simp] theorem State.setI_dt : (s.setI w).dt = s.dt := rfl
@[simp] theorem State.setI_st : (s.setI w).st = s.st := rfl
@[simp] theorem State.setI_mem : (s.setI w).mem = s.mem := rfl
@[simp] theorem State.setI_fb : (s.setI w).fb = s.fb := rfl
@[simp] theorem State.setI_key : (s.setI w).key = s.key := rfl
@[simp] theorem State.setI_wait : (s.setI w).wait = s.wait := rfl
@[simp] theorem State.setI_status : (s.setI w).status = s.status := rfl
@[simp] theorem State.setI_freeCount : (s.setI w).freeCount = s.freeCount := rfl
@[simp] theorem State.setI_getV (z : Reg) : (s.setI w).getV z = s.getV z := rfl
@[simp] theorem State.setI_memRead (c : Nat) : (s.setI w).memRead c = s.memRead c := rfl
end setI

section setPc
variable (s : State) (w : Word)
@[simp] theorem State.setPc_v : (s.setPc w).v = s.v := rfl
@[simp] theorem State.setPc_i : (s.setPc w).i = s.i := rfl
@[simp] theorem State.setPc_pc : (s.setPc w).pc = w := rfl
@[simp] theorem State.setPc_stack : (s.setPc w).stack = s.stack := rfl
@[simp] theorem State.setPc_sp : (s.setPc w).sp = s.sp := rfl
@[simp] theorem State.setPc_dt : (s.setPc w).dt = s.dt := rfl
@[simp] theorem State.setPc_st : (s.setPc w).st = s.st := rfl
@[simp] theorem State.setPc_mem : (s.setPc w).mem = s.mem := rfl
@[simp] theorem State.setPc_fb : (s.setPc w).fb = s.fb := rfl
@[simp] theorem State.setPc_key : (s.setPc w).key = s.key := rfl
@[simp] theorem State.setPc_wait : (s.setPc w).wait = s.wait := rfl
@[simp] theorem State.setPc_status : (s.setPc w).status = s.status := rfl
@[simp] theorem State.setPc_freeCount : (s.setPc w).freeCount = s.freeCount := rfl
@[simp] theorem State.setPc_getV (z : Reg) : (s.setPc w).getV z = s.getV z := rfl
@[simp] theorem State.setPc_memRead (c : Nat) : (s.setPc w).memRead c = s.memRead c := rfl
end setPc

section setDT
variable (s : State) (b : Byte)
@[simp] theorem State.setDT_v : (s.setDT b).v = s.v := rfl
@[simp] theorem State.setDT_i : (s.setDT b).i = s.i := rfl
@[simp] theorem State.setDT_pc : (s.setDT b).pc = s.pc := rfl
@[simp] theorem State.setDT_stack : (s.setDT b).stack = s.stack := rfl
@[simp] theorem State.setDT_sp : (s.setDT b).sp = s.sp := rfl
@[simp] theorem State.setDT_dt : (s.setDT b).dt = b := rfl
@[simp] theorem State.setDT_st : (s.setDT b).st = s.st := rfl
@[simp] theorem State.setDT_mem : (s.setDT b).mem = s.mem := rfl
@[simp] theorem State.setDT_fb : (s.setDT b).fb = s.fb := rfl
@[simp] theorem State.setDT_key : (s.setDT b).key = s.key := rfl
@[simp] theorem State.setDT_wait : (s.setDT b).wait = s.wait := rfl
@[simp] theorem State.setDT_status : (s.setDT b).status = s.status := rfl
@[simp] theorem State.setDT_freeCount : (s.setDT b).freeCount = s.freeCount := rfl
@[simp] theorem State.setDT_getV (z : Reg) : (s.setDT b).getV z = s.getV z := rfl
@[simp] theorem State.setDT_memRead (c : Nat) : (s.setDT b).memRead c = s.memRead c := rfl
end setDT

section setST
variable (s : State) (b : Byte)
@[simp] theorem State.setST_v : (s.setST b).v = s.v := rfl
@[simp] theorem State.setST_i : (s.setST b).i = s.i := rfl
@[simp] theorem State.setST_pc : (s.setST b).pc = s.pc := rfl
@[simp] theorem State.setST_stack : (s.setST b).stack = s.stack := rfl
@[simp] theorem State.setST_sp : (s.setST b).sp = s.sp := rfl
@[simp] theorem State.setST_dt : (s.setST b).dt = s.dt := rfl
@[simp] theorem State.setST_st : (s.setST b).st = b := rfl
@[simp] theorem State.setST_mem : (s.setST b).mem = s.mem := rfl
@[simp] theorem State.setST_fb : (s.setST b).fb = s.fb := rfl
@[simp] theorem State.setST_key : (s.setST b).key = s.key := rfl
@[simp] theorem State.setST_wait : (s.setST b).wait = s.wait := rfl
@[simp] theorem State.setST_status : (s.setST b).status = s.status := rfl
@[simp] theorem State.setST_freeCount : (s.setST b).freeCount = s.freeCount := rfl
@[simp] theorem State.setST_getV (z : Reg) : (s.setST b).getV z = s.getV z := rfl
@[simp] theorem State.setST_memRead (c : Nat) : (s.setST b).memRead c = s.memRead c := rfl
end setST

section setFb
variable (s : State) (f : Framebuffer)
@[simp] theorem State.setFb_v : (s.setFb f).v = s.v := rfl
@[simp] theorem State.setFb_i : (s.setFb f).i = s.i := rfl
@[simp] theorem State.setFb_pc : (s.setFb f).pc = s.pc := rfl
@[simp] theorem State.setFb_stack : (s.setFb f).stack = s.stack := rfl
@[simp] theorem State.setFb_sp : (s.setFb f).sp = s.sp := rfl
@[simp] theorem State.setFb_dt : (s.setFb f).dt = s.dt := rfl
@[simp] theorem State.setFb_st : (s.setFb f).st = s.st := rfl
@[simp] theorem State.setFb_mem : (s.setFb f).mem = s.mem := rfl
@[simp] theorem State.setFb_fb : (s.setFb f).fb = f := rfl
@[simp] theorem State.setFb_key : (s.setFb f).key = s.key := rfl
@[simp] theorem State.setFb_wait : (s.setFb f).wait = s.wait := rfl
@[simp] theorem State.setFb_status : (s.setFb f).status = s.status := rfl
@[simp] theorem State.setFb_freeCount : (s.setFb f).freeCount = s.freeCount := rfl
@[simp] theorem State.setFb_getV (z : Reg) : (s.setFb f).getV z = s.getV z := rfl
@[simp] theorem State.setFb_memRead (c : Nat) : (s.setFb f).memRead c = s.memRead c := rfl
end setFb

section setKey
variable (s : State) (k : BitVec 16)
@[simp] theorem State.setKey_v : (s.setKey k).v = s.v := rfl
@[simp] theorem State.setKey_i : (s.setKey k).i = s.i := rfl
@[simp] theorem State.setKey_pc : (s.setKey k).pc = s.pc := rfl
@[simp] theorem State.setKey_stack : (s.setKey k).stack = s.stack := rfl
@[simp] theorem State.setKey_sp : (s.setKey k).sp = s.sp := rfl
@[simp] theorem State.setKey_dt : (s.setKey k).dt = s.dt := rfl
@[simp] theorem State.setKey_st : (s.setKey k).st = s.st := rfl
@[simp] theorem State.setKey_mem : (s.setKey k).mem = s.mem := rfl
@[simp] theorem State.setKey_fb : (s.setKey k).fb = s.fb := rfl
@[simp] theorem State.setKey_key : (s.setKey k).key = k := rfl
@[simp] theorem State.setKey_wait : (s.setKey k).wait = s.wait := rfl
@[simp] theorem State.setKey_status : (s.setKey k).status = s.status := rfl
@[simp] theorem State.setKey_freeCount : (s.setKey k).freeCount = s.freeCount := rfl
@[simp] theorem State.setKey_getV (z : Reg) : (s.setKey k).getV z = s.getV z := rfl
@[simp] theorem State.setKey_memRead (c : Nat) : (s.setKey k).memRead c = s.memRead c := rfl
end setKey

section setWait
variable (s : State) (r : Option Reg)
@[simp] theorem State.setWait_v : (s.setWait r).v = s.v := rfl
@[simp] theorem State.setWait_i : (s.setWait r).i = s.i := rfl
@[simp] theorem State.setWait_pc : (s.setWait r).pc = s.pc := rfl
@[simp] theorem State.setWait_stack : (s.setWait r).stack = s.stack := rfl
@[simp] theorem State.setWait_sp : (s.setWait r).sp = s.sp := rfl
@[simp] theorem State.setWait_dt : (s.setWait r).dt = s.dt := rfl
@[simp] theorem State.setWait_st : (s.setWait r).st = s.st := rfl
@[simp] theorem State.setWait_mem : (s.setWait r).mem = s.mem := rfl
@[simp] theorem State.setWait_fb : (s.setWait r).fb = s.fb := rfl
@[simp] theorem State.setWait_key : (s.setWait r).key = s.key := rfl
@[simp] theorem State.setWait_wait : (s.setWait r).wait = r := rfl
@[simp] theorem State.setWait_status : (s.setWait r).status = s.status := rfl
@[simp] theorem State.setWait_freeCount : (s.setWait r).freeCount = s.freeCount := rfl
@[simp] theorem State.setWait_getV (z : Reg) : (s.setWait r).getV z = s.getV z := rfl
@[simp] theorem State.setWait_memRead (c : Nat) : (s.setWait r).memRead c = s.memRead c := rfl
end setWait

section memWrite
variable (s : State) (a : Nat) (b : Byte)
@[simp] theorem State.memWrite_v : (s.memWrite a b).v = s.v := rfl
@[simp] theorem State.memWrite_i : (s.memWrite a b).i = s.i := rfl
@[simp] theorem State.memWrite_pc : (s.memWrite a b).pc = s.pc := rfl
@[simp] theorem State.memWrite_stack : (s.memWrite a b).stack = s.stack := rfl
@[simp] theorem State.memWrite_sp : (s.memWrite a b).sp = s.sp := rfl
@[simp] theorem State.memWrite_dt : (s.memWrite a b).dt = s.dt := rfl
@[simp] theorem State.memWrite_st : (s.memWrite a b).st = s.st := rfl
@[simp] theorem State.memWrite_mem : (s.memWrite a b).mem = Memory.write s.mem (a % 4096) b := rfl
@[simp] theorem State.memWrite_fb : (s.memWrite a b).fb = s.fb := rfl
@[simp] theorem State.memWrite_key : (s.memWrite a b).key = s.key := rfl
@[simp] theorem State.memWrite_wait : (s.memWrite a b).wait = s.wait := rfl
@[simp] theorem State.memWrite_status : (s.memWrite a b).status = s.status := rfl
@[simp] theorem State.memWrite_freeCount : (s.memWrite a b).freeCount = s.freeCount := rfl
@[simp] theorem State.memWrite_getV (z : Reg) : (s.memWrite a b).getV z = s.getV z := rfl
end memWrite

section countFree
variable (s : State)
@[simp] theorem State.countFree_v : s.countFree.v = s.v := rfl
@[simp] theorem State.countFree_i : s.countFree.i = s.i := rfl
@[simp] theorem State.countFree_pc : s.countFree.pc = s.pc := rfl
@[simp] theorem State.countFree_stack : s.countFree.stack = s.stack := rfl
@[simp] theorem State.countFree_sp : s.countFree.sp = s.sp := rfl
@[simp] theorem State.countFree_dt : s.countFree.dt = s.dt := rfl
@[simp] theorem State.countFree_st : s.countFree.st = s.st := rfl
@[simp] theorem State.countFree_mem : s.countFree.mem = s.mem := rfl
@[simp] theorem State.countFree_fb : s.countFree.fb = s.fb := rfl
@[simp] theorem State.countFree_key : s.countFree.key = s.key := rfl
@[simp] theorem State.countFree_wait : s.countFree.wait = s.wait := rfl
@[simp] theorem State.countFree_status : s.countFree.status = s.status := rfl
@[simp] theorem State.countFree_freeCount : s.countFree.freeCount = s.freeCount + 1 := rfl
@[simp] theorem State.countFree_getV (z : Reg) : s.countFree.getV z = s.getV z := rfl
@[simp] theorem State.countFree_memRead (c : Nat) : s.countFree.memRead c = s.memRead c := rfl
end countFree

section push
variable (s : State) (w : Word)
@[simp] theorem State.push_v : (s.push w).v = s.v := rfl
@[simp] theorem State.push_i : (s.push w).i = s.i := rfl
@[simp] theorem State.push_pc : (s.push w).pc = s.pc := rfl
@[simp] theorem State.push_stack : (s.push w).stack = s.stack.setIfInBounds s.sp.val w := rfl
@[simp] theorem State.push_sp : (s.push w).sp = ⟨min (s.sp.val + 1) 12, by omega⟩ := rfl
@[simp] theorem State.push_dt : (s.push w).dt = s.dt := rfl
@[simp] theorem State.push_st : (s.push w).st = s.st := rfl
@[simp] theorem State.push_mem : (s.push w).mem = s.mem := rfl
@[simp] theorem State.push_fb : (s.push w).fb = s.fb := rfl
@[simp] theorem State.push_key : (s.push w).key = s.key := rfl
@[simp] theorem State.push_wait : (s.push w).wait = s.wait := rfl
@[simp] theorem State.push_status : (s.push w).status = s.status := rfl
@[simp] theorem State.push_freeCount : (s.push w).freeCount = s.freeCount := rfl
@[simp] theorem State.push_getV (z : Reg) : (s.push w).getV z = s.getV z := rfl
@[simp] theorem State.push_memRead (c : Nat) : (s.push w).memRead c = s.memRead c := rfl
end push

section pop
variable (s : State)
@[simp] theorem State.pop_v : s.pop.v = s.v := rfl
@[simp] theorem State.pop_i : s.pop.i = s.i := rfl
@[simp] theorem State.pop_pc : s.pop.pc = s.pc := rfl
@[simp] theorem State.pop_stack : s.pop.stack = s.stack := rfl
@[simp] theorem State.pop_sp : s.pop.sp = ⟨s.sp.val - 1, by have := s.sp.isLt; omega⟩ := rfl
@[simp] theorem State.pop_dt : s.pop.dt = s.dt := rfl
@[simp] theorem State.pop_st : s.pop.st = s.st := rfl
@[simp] theorem State.pop_mem : s.pop.mem = s.mem := rfl
@[simp] theorem State.pop_fb : s.pop.fb = s.fb := rfl
@[simp] theorem State.pop_key : s.pop.key = s.key := rfl
@[simp] theorem State.pop_wait : s.pop.wait = s.wait := rfl
@[simp] theorem State.pop_status : s.pop.status = s.status := rfl
@[simp] theorem State.pop_freeCount : s.pop.freeCount = s.freeCount := rfl
@[simp] theorem State.pop_getV (z : Reg) : s.pop.getV z = s.getV z := rfl
@[simp] theorem State.pop_memRead (c : Nat) : s.pop.memRead c = s.memRead c := rfl
end pop

section skipIf
variable (s : State) (c : Bool)
@[simp] theorem State.skipIf_v : (s.skipIf c).v = s.v := by cases c <;> rfl
@[simp] theorem State.skipIf_i : (s.skipIf c).i = s.i := by cases c <;> rfl
theorem State.skipIf_pc : (s.skipIf c).pc = if c then s.pc + 2 else s.pc := by cases c <;> rfl
@[simp] theorem State.skipIf_stack : (s.skipIf c).stack = s.stack := by cases c <;> rfl
@[simp] theorem State.skipIf_sp : (s.skipIf c).sp = s.sp := by cases c <;> rfl
@[simp] theorem State.skipIf_dt : (s.skipIf c).dt = s.dt := by cases c <;> rfl
@[simp] theorem State.skipIf_st : (s.skipIf c).st = s.st := by cases c <;> rfl
@[simp] theorem State.skipIf_mem : (s.skipIf c).mem = s.mem := by cases c <;> rfl
@[simp] theorem State.skipIf_fb : (s.skipIf c).fb = s.fb := by cases c <;> rfl
@[simp] theorem State.skipIf_key : (s.skipIf c).key = s.key := by cases c <;> rfl
@[simp] theorem State.skipIf_wait : (s.skipIf c).wait = s.wait := by cases c <;> rfl
@[simp] theorem State.skipIf_status : (s.skipIf c).status = s.status := by cases c <;> rfl
@[simp] theorem State.skipIf_freeCount : (s.skipIf c).freeCount = s.freeCount := by cases c <;> rfl
@[simp] theorem State.skipIf_getV (z : Reg) : (s.skipIf c).getV z = s.getV z := by cases c <;> rfl
@[simp] theorem State.skipIf_memRead (a : Nat) : (s.skipIf c).memRead a = s.memRead a := by cases c <;> rfl
end skipIf

section enterFault
variable (s : State) (cause : Fault)
@[simp] theorem State.enterFault_status : (s.enterFault cause).status = .fault cause := rfl
@[simp] theorem State.enterFault_freeCount : (s.enterFault cause).freeCount = s.freeCount + 1 := rfl
@[simp] theorem State.enterFault_mem : (s.enterFault cause).mem = Memory.ofFn (Config.faultMem s.freeCount) := rfl
end enterFault

section advance
variable (s : State)
@[simp] theorem State.advance_v : s.advance.v = s.v := rfl
@[simp] theorem State.advance_i : s.advance.i = s.i := rfl
@[simp] theorem State.advance_pc : s.advance.pc = s.pc + 2 := rfl
@[simp] theorem State.advance_stack : s.advance.stack = s.stack := rfl
@[simp] theorem State.advance_sp : s.advance.sp = s.sp := rfl
@[simp] theorem State.advance_dt : s.advance.dt = s.dt := rfl
@[simp] theorem State.advance_st : s.advance.st = s.st := rfl
@[simp] theorem State.advance_mem : s.advance.mem = s.mem := rfl
@[simp] theorem State.advance_fb : s.advance.fb = s.fb := rfl
@[simp] theorem State.advance_key : s.advance.key = s.key := rfl
@[simp] theorem State.advance_wait : s.advance.wait = s.wait := rfl
@[simp] theorem State.advance_status : s.advance.status = s.status := rfl
@[simp] theorem State.advance_freeCount : s.advance.freeCount = s.freeCount := rfl
@[simp] theorem State.advance_getV (z : Reg) : s.advance.getV z = s.getV z := rfl
@[simp] theorem State.advance_memRead (c : Nat) : s.advance.memRead c = s.memRead c := rfl
end advance

/-- Read after write over the register file (R20): no register is hardwired and none aliases another. -/
@[simp] theorem State.getV_setV (s : State) (x y : Reg) (b : Byte) :
    (s.setV x b).getV y = if y = x then b else s.getV y := by
  simp [State.setV, State.getV, Vector.getElem_set, Fin.ext_iff, eq_comm]

/-- The register file is its sixteen reads. -/
theorem State.v_ext (s t : State) (h : ∀ r : Reg, s.getV r = t.getV r) : s.v = t.v := by
  apply Vector.ext
  intro j hj
  exact h ⟨j, hj⟩

/-- Two states with the same fields are the same state. -/
theorem State.ext_fields (s t : State) (hv : ∀ r : Reg, s.getV r = t.getV r) (hi : s.i = t.i) (hpc : s.pc = t.pc)
    (hstack : s.stack = t.stack) (hsp : s.sp = t.sp) (hdt : s.dt = t.dt) (hst : s.st = t.st) (hmem : s.mem = t.mem)
    (hfb : s.fb = t.fb) (hkey : s.key = t.key) (hwait : s.wait = t.wait) (hstatus : s.status = t.status)
    (hfree : s.freeCount = t.freeCount) : s = t := by
  have hv' := State.v_ext s t hv
  cases s
  cases t
  simp_all

end Sys2Proof.Machine
end

