-- ==== Sys2Proof/Laws/Ops.lean ====
section
/-! SUPPORT. What each shared operation does, said once: memory through the state, the call stack, the skip, framebuffer
cells, the block transfers. -/

namespace Sys2Proof.Machine

/-- Read after write through the state (R14, R50, R60): addresses are compared modulo 4096. -/
theorem State.memRead_memWrite (s : State) (h : Memory.wf s.mem = true) (a c : Nat) (b : Byte) :
    (s.memWrite a b).memRead c = if c % 4096 = a % 4096 then b else s.memRead c := by
  simp [State.memRead, State.memWrite, Memory.read_write h]

/-- A store keeps the memory canonical. -/
theorem State.memWrite_wf (s : State) (h : Memory.wf s.mem = true) (a : Nat) (b : Byte) :
    Memory.wf (s.memWrite a b).mem = true :=
  Memory.wf_write h (by omega) b

/-- Entering a Fault state gives a canonical memory, whatever the free values are. -/
theorem State.enterFault_wf (s : State) (cause : Fault) : Memory.wf (s.enterFault cause).mem = true :=
  Memory.wf_ofFn _

/-- With room, a push raises the stack pointer by one (R28). -/
theorem State.push_sp_val (s : State) (w : Word) (room : s.sp ≠ 12) : (s.push w).sp.val = s.sp.val + 1 := by
  have := s.sp.isLt
  have : s.sp.val ≠ 12 := fun h => room (Fin.ext h)
  simp only [State.push_sp]
  omega

/-- With room, a push changes one stack entry (R28). -/
theorem State.push_stack_get (s : State) (w : Word) (j : Nat) (hj : j < 12) :
    (s.push w).stack[j] = if j = s.sp.val then w else s.stack[j] := by
  simp [Vector.getElem_setIfInBounds, eq_comm]

/-- The entry RET reads after CALL wrote it (R28). -/
theorem State.top_push (s : State) (w : Word) (room : s.sp ≠ 12) : (s.push w).top = w := by
  have h := State.push_sp_val s w room
  simp only [State.top, h, Nat.add_sub_cancel]
  rw [State.push_stack_get, if_pos rfl]

/-- Dropping what was pushed gives the stack pointer back. -/
theorem State.sp_pop_push (s : State) (w : Word) (room : s.sp ≠ 12) : (s.push w).pop.sp = s.sp := by
  apply Fin.ext
  rw [State.pop_sp]
  simp only [State.push_sp_val s w room, Nat.add_sub_cancel]

/-! Framebuffer cells (R15). -/

theorem Framebuffer.cell_setCell (f : Framebuffer) (p q : Nat) (hp : p < 2048) (hq : q < 2048) (b : Bool) :
    Framebuffer.cell (Framebuffer.setCell f p b) q = if q = p then b else Framebuffer.cell f q := by
  simp only [Framebuffer.cell, Framebuffer.setCell, Vector.getElem_set, Nat.mod_eq_of_lt hp, Nat.mod_eq_of_lt hq]
  have hq64 : q % 64 < 64 := Nat.mod_lt _ (by omega)
  by_cases hrow : p / 64 = q / 64
  · simp only [hrow, if_true]
    by_cases hpq : q = p
    · subst hpq
      cases b <;> simp [hq64]
    · have hbit : ¬q % 64 = p % 64 := by omega
      cases b <;> simp [hq64, hpq, hbit]
  · have hpq : q ≠ p := fun h => hrow (by rw [h])
    simp [hrow, hpq]

/-- On the screen the reduction modulo 2048 changes nothing (R191 f). -/
theorem fbIndex_onScreen {cx cy : Nat} (hx : cx < 64) (hy : cy < 32) : fbIndex cx cy = cx + 64 * cy := by
  unfold fbIndex
  omega

/-- Read after write over on-screen cells (R15). -/
theorem fbRead_fbWrite (f : Framebuffer) {cx cy dx dy : Nat} (hx : cx < 64) (hy : cy < 32) (hdx : dx < 64)
    (hdy : dy < 32) (b : Bool) :
    fbRead (fbWrite f cx cy b) dx dy = if dx = cx ∧ dy = cy then b else fbRead f dx dy := by
  unfold fbRead fbWrite
  rw [fbIndex_onScreen hx hy, fbIndex_onScreen hdx hdy, Framebuffer.cell_setCell _ _ _ (by omega) (by omega)]
  simp only [show (dx + 64 * dy = cx + 64 * cy) ↔ (dx = cx ∧ dy = cy) by omega]

/-- After CLS every cell reads 0 (R190). -/
theorem fbRead_clear (cx cy : Nat) : fbRead fbClear cx cy = false := by
  simp [fbRead, fbClear, Framebuffer.cell]

/-- The framebuffer is its 2048 cells. -/
theorem Framebuffer.ext_cells (f g : Framebuffer) (h : ∀ cx cy, cx < 64 → cy < 32 → fbRead f cx cy = fbRead g cx cy) :
    f = g := by
  apply Vector.ext
  intro r hr
  apply BitVec.eq_of_getLsbD_eq
  intro c hc
  have hcell := h c r hc hr
  unfold fbRead at hcell
  rw [fbIndex_onScreen hc hr] at hcell
  simp only [Framebuffer.cell, show (c + 64 * r) % 2048 / 64 = r by omega,
    show (c + 64 * r) % 64 = c by omega] at hcell
  exact hcell

/-! The block transfers (R174, R175). -/

@[simp] theorem regOfNat_val (r : Nat) : (regOfNat r).val = r % 16 := rfl

theorem regOfNat_eq {r : Nat} (hr : r < 16) (z : Reg) : z = regOfNat r ↔ z.val = r := by
  rw [Fin.ext_iff, regOfNat_val, Nat.mod_eq_of_lt hr]

@[simp] theorem State.dumpRegs_v (s : State) (n : Nat) : (s.dumpRegs n).v = s.v := by
  induction n with
  | zero => rfl
  | succ n ih => simpa [State.dumpRegs, State.dumpOne] using ih

@[simp] theorem State.dumpRegs_pc (s : State) (n : Nat) : (s.dumpRegs n).pc = s.pc := by
  induction n with
  | zero => rfl
  | succ n ih => simpa [State.dumpRegs, State.dumpOne] using ih

@[simp] theorem State.dumpRegs_stack (s : State) (n : Nat) : (s.dumpRegs n).stack = s.stack := by
  induction n with
  | zero => rfl
  | succ n ih => simpa [State.dumpRegs, State.dumpOne] using ih

@[simp] theorem State.dumpRegs_sp (s : State) (n : Nat) : (s.dumpRegs n).sp = s.sp := by
  induction n with
  | zero => rfl
  | succ n ih => simpa [State.dumpRegs, State.dumpOne] using ih

@[simp] theorem State.dumpRegs_dt (s : State) (n : Nat) : (s.dumpRegs n).dt = s.dt := by
  induction n with
  | zero => rfl
  | succ n ih => simpa [State.dumpRegs, State.dumpOne] using ih

@[simp] theorem State.dumpRegs_st (s : State) (n : Nat) : (s.dumpRegs n).st = s.st := by
  induction n with
  | zero => rfl
  | succ n ih => simpa [State.dumpRegs, State.dumpOne] using ih

@[simp] theorem State.dumpRegs_fb (s : State) (n : Nat) : (s.dumpRegs n).fb = s.fb := by
  induction n with
  | zero => rfl
  | succ n ih => simpa [State.dumpRegs, State.dumpOne] using ih

@[simp] theorem State.dumpRegs_key (s : State) (n : Nat) : (s.dumpRegs n).key = s.key := by
  induction n with
  | zero => rfl
  | succ n ih => simpa [State.dumpRegs, State.dumpOne] using ih

@[simp] theorem State.dumpRegs_wait (s : State) (n : Nat) : (s.dumpRegs n).wait = s.wait := by
  induction n with
  | zero => rfl
  | succ n ih => simpa [State.dumpRegs, State.dumpOne] using ih

@[simp] theorem State.dumpRegs_status (s : State) (n : Nat) : (s.dumpRegs n).status = s.status := by
  induction n with
  | zero => rfl
  | succ n ih => simpa [State.dumpRegs, State.dumpOne] using ih

@[simp] theorem State.dumpRegs_freeCount (s : State) (n : Nat) : (s.dumpRegs n).freeCount = s.freeCount := by
  induction n with
  | zero => rfl
  | succ n ih => simpa [State.dumpRegs, State.dumpOne] using ih

@[simp] theorem State.dumpRegs_getV (s : State) (n : Nat) (z : Reg) : (s.dumpRegs n).getV z = s.getV z := by
  simp [State.getV]

@[simp] theorem State.loadRegs_mem (s : State) (n : Nat) : (s.loadRegs n).mem = s.mem := by
  induction n with
  | zero => rfl
  | succ n ih => simpa [State.loadRegs, State.loadOne] using ih

@[simp] theorem State.loadRegs_pc (s : State) (n : Nat) : (s.loadRegs n).pc = s.pc := by
  induction n with
  | zero => rfl
  | succ n ih => simpa [State.loadRegs, State.loadOne] using ih

@[simp] theorem State.loadRegs_stack (s : State) (n : Nat) : (s.loadRegs n).stack = s.stack := by
  induction n with
  | zero => rfl
  | succ n ih => simpa [State.loadRegs, State.loadOne] using ih

@[simp] theorem State.loadRegs_sp (s : State) (n : Nat) : (s.loadRegs n).sp = s.sp := by
  induction n with
  | zero => rfl
  | succ n ih => simpa [State.loadRegs, State.loadOne] using ih

@[simp] theorem State.loadRegs_dt (s : State) (n : Nat) : (s.loadRegs n).dt = s.dt := by
  induction n with
  | zero => rfl
  | succ n ih => simpa [State.loadRegs, State.loadOne] using ih

@[simp] theorem State.loadRegs_st (s : State) (n : Nat) : (s.loadRegs n).st = s.st := by
  induction n with
  | zero => rfl
  | succ n ih => simpa [State.loadRegs, State.loadOne] using ih

@[simp] theorem State.loadRegs_fb (s : State) (n : Nat) : (s.loadRegs n).fb = s.fb := by
  induction n with
  | zero => rfl
  | succ n ih => simpa [State.loadRegs, State.loadOne] using ih

@[simp] theorem State.loadRegs_key (s : State) (n : Nat) : (s.loadRegs n).key = s.key := by
  induction n with
  | zero => rfl
  | succ n ih => simpa [State.loadRegs, State.loadOne] using ih

@[simp] theorem State.loadRegs_wait (s : State) (n : Nat) : (s.loadRegs n).wait = s.wait := by
  induction n with
  | zero => rfl
  | succ n ih => simpa [State.loadRegs, State.loadOne] using ih

@[simp] theorem State.loadRegs_status (s : State) (n : Nat) : (s.loadRegs n).status = s.status := by
  induction n with
  | zero => rfl
  | succ n ih => simpa [State.loadRegs, State.loadOne] using ih

@[simp] theorem State.loadRegs_freeCount (s : State) (n : Nat) : (s.loadRegs n).freeCount = s.freeCount := by
  induction n with
  | zero => rfl
  | succ n ih => simpa [State.loadRegs, State.loadOne] using ih

@[simp] theorem State.loadRegs_memRead (s : State) (n a : Nat) : (s.loadRegs n).memRead a = s.memRead a := by
  simp [State.memRead]

theorem ofNat16_succ (w : Word) (n : Nat) : w + BitVec.ofNat 16 n + 1#16 = w + BitVec.ofNat 16 (n + 1) := by
  apply BitVec.eq_of_toNat_eq
  simp [Nat.add_assoc]

/-- R174: `I` advances by one per round, modulo 65536. -/
theorem State.dumpRegs_i (s : State) (n : Nat) : (s.dumpRegs n).i = s.i + BitVec.ofNat 16 n := by
  induction n with
  | zero => simp [State.dumpRegs]
  | succ n ih => simp [State.dumpRegs, State.dumpOne, ih, ofNat16_succ]

/-- R175: `I` advances by one per round, modulo 65536. -/
theorem State.loadRegs_i (s : State) (n : Nat) : (s.loadRegs n).i = s.i + BitVec.ofNat 16 n := by
  induction n with
  | zero => simp [State.loadRegs]
  | succ n ih => simp [State.loadRegs, State.loadOne, ih, ofNat16_succ]

/-- The address of round `k` of a transfer, reduced: the register's 16-bit wrap does not show modulo 4096. -/
theorem indexAddress_add (i : Word) (k : Nat) :
    indexAddress (i + BitVec.ofNat 16 k) 0 % 4096 = indexAddress i k % 4096 := by
  simp only [indexAddress, BitVec.toNat_add, BitVec.toNat_ofNat]
  omega

theorem State.dumpRegs_wf (s : State) (h : Memory.wf s.mem = true) (n : Nat) : Memory.wf (s.dumpRegs n).mem = true := by
  induction n with
  | zero => exact h
  | succ n ih => exact State.memWrite_wf _ ih _ _

/-- R174: `n` rounds of the dump store V0 to V(n-1) at I, I + 1, ... and change no other cell. -/
theorem State.dumpRegs_memRead (s : State) (h : Memory.wf s.mem = true) (n : Nat) (hn : n ≤ 16) :
    (∀ r : Reg, r.val < n → (s.dumpRegs n).memRead (indexAddress s.i r.val) = s.getV r) ∧
    ∀ c, (∀ k, k < n → c % 4096 ≠ indexAddress s.i k % 4096) → (s.dumpRegs n).memRead c = s.memRead c := by
  induction n with
  | zero => exact ⟨fun r hr => absurd hr (by omega), fun c _ => rfl⟩
  | succ n ih =>
    obtain ⟨ihIn, ihOut⟩ := ih (by omega)
    have hwf := State.dumpRegs_wf s h n
    have hstep : ∀ c, (s.dumpRegs (n + 1)).memRead c =
        if c % 4096 = indexAddress s.i n % 4096 then s.getV (regOfNat n) else (s.dumpRegs n).memRead c := by
      intro c
      simp only [State.dumpRegs, State.dumpOne, State.setI_memRead, State.memRead_memWrite _ hwf,
        State.dumpRegs_getV, State.dumpRegs_i, indexAddress_add]
    constructor
    · intro r hr
      rw [hstep]
      by_cases hrn : r.val = n
      · rw [if_pos (by rw [hrn]), ← (regOfNat_eq (by omega) r).2 hrn]
      · rw [if_neg (by unfold indexAddress; omega)]
        exact ihIn r (by omega)
    · intro c hc
      rw [hstep, if_neg (hc n (by omega))]
      exact ihOut c fun k hk => hc k (by omega)

/-- R175: `n` rounds of the load give V0 to V(n-1) the bytes at I, I + 1, ... and change no other register. -/
theorem State.loadRegs_getV (s : State) (n : Nat) (hn : n ≤ 16) (r : Reg) :
    (s.loadRegs n).getV r = if r.val < n then s.memRead (indexAddress s.i r.val) else s.getV r := by
  induction n with
  | zero => rfl
  | succ n ih =>
    have haddr : ∀ c d, c % 4096 = d % 4096 → s.memRead c = s.memRead d := fun c d hcd => by
      simp [State.memRead, hcd]
    simp only [State.loadRegs, State.loadOne, State.setI_getV, State.getV_setV, regOfNat_eq (show n < 16 by omega),
      State.loadRegs_memRead, State.loadRegs_i, haddr _ _ (indexAddress_add s.i n), ih (by omega)]
    by_cases hrn : r.val = n
    · simp [hrn]
    · simp only [if_neg hrn, show r.val < n + 1 ↔ r.val < n by omega]

end Sys2Proof.Machine
end

