-- ==== Sys2Proof/Laws/Display.lean ====
section
/-! SUPPORT. What the draw loops of R191 do, said once: which cells they flip, and when they meet a collision. -/

namespace Sys2Proof.Machine

/-- A cell of the row being drawn that a bit not yet drawn covers. -/
def rowCovers (sprite : Byte) (ox left cx : Nat) : Bool :=
  decide (ox + (8 - left) ≤ cx) && decide (cx < ox + 8) && sprite.getLsbD (7 - (cx - ox))

theorem rowCovers_succ (sprite : Byte) (ox left cx : Nat) (hleft : left < 8) :
    rowCovers sprite ox (left + 1) cx =
      (rowCovers sprite ox left cx || (decide (cx = ox + (7 - left)) && sprite.getLsbD left)) := by
  unfold rowCovers
  by_cases h : cx = ox + (7 - left)
  · subst h
    simp [show 7 - (7 - left) = left by omega, show ox + (7 - left) < ox + 8 by omega,
      show ¬ox + (8 - left) ≤ ox + (7 - left) by omega]
  · simp [h, show ox + (7 - left) ≤ cx ↔ ox + (8 - left) ≤ cx by omega]

/-- One sprite bit of 1 (R191). -/
theorem flipCell_spec (d : Drawing) {cx cy : Nat} (hx : cx < 64) (hy : cy < 32) :
    (∀ dx dy, dx < 64 → dy < 32 →
      fbRead (flipCell d cx cy).fb dx dy = (fbRead d.fb dx dy ^^ (decide (dx = cx) && decide (dy = cy)))) ∧
    (flipCell d cx cy).hit = (d.hit || fbRead d.fb cx cy) := by
  refine ⟨fun dx dy hdx hdy => ?_, rfl⟩
  simp only [flipCell, fbRead_fbWrite d.fb hx hy hdx hdy]
  by_cases hcell : dx = cx ∧ dy = cy
  · obtain ⟨rfl, rfl⟩ := hcell
    simp
  · rw [if_neg hcell]
    by_cases h1 : dx = cx <;> by_cases h2 : dy = cy <;> simp_all

/-- The rest of one sprite row (R191): it flips the covered cells of its row and no other cell, and it meets a
collision exactly when a covered cell was lit. -/
theorem drawRowBits_spec (sprite : Byte) (ox cy left : Nat) (d : Drawing) (hy : cy < 32) (hleft : left ≤ 8) :
    (∀ dx dy, dx < 64 → dy < 32 → fbRead (drawRowBits sprite ox cy left d).fb dx dy =
      (fbRead d.fb dx dy ^^ (decide (dy = cy) && rowCovers sprite ox left dx))) ∧
    ((drawRowBits sprite ox cy left d).hit = true ↔
      d.hit = true ∨ ∃ cx, cx < 64 ∧ rowCovers sprite ox left cx = true ∧ fbRead d.fb cx cy = true) := by
  induction left generalizing d with
  | zero =>
    have hnone : ∀ cx, rowCovers sprite ox 0 cx = false := fun cx => by
      unfold rowCovers
      by_cases h : ox + (8 - 0) ≤ cx
      · simp [show ¬cx < ox + 8 by omega]
      · simp [h]
    simp [drawRowBits, hnone]
  | succ left ih =>
    simp only [drawRowBits]
    split
    · next hout =>
      have hnone : ∀ cx, cx < 64 → rowCovers sprite ox (left + 1) cx = false := fun cx hcx => by
        unfold rowCovers
        simp [show ¬ox + (7 - left) ≤ cx by omega]
      refine ⟨fun dx dy hdx _ => by simp [hnone dx hdx], ⟨Or.inl, ?_⟩⟩
      rintro (h | ⟨cx, hcx, hcov, _⟩)
      · exact h
      · rw [hnone cx hcx] at hcov
        cases hcov
    · next hin =>
      have hcx : ox + (7 - left) < 64 := by omega
      have hcov := rowCovers_succ sprite ox left
      cases hbit : sprite.getLsbD left with
      | false =>
        have hsame : ∀ cx, rowCovers sprite ox (left + 1) cx = rowCovers sprite ox left cx := fun cx => by
          rw [hcov cx (by omega), hbit]
          simp
        simpa only [hsame, Bool.false_eq_true, if_false] using ih d (by omega)
      | true =>
        obtain ⟨ihFb, ihHit⟩ := ih (flipCell d (ox + (7 - left)) cy) (by omega)
        obtain ⟨flFb, flHit⟩ := flipCell_spec d hcx hy
        have hself : rowCovers sprite ox left (ox + (7 - left)) = false := by
          unfold rowCovers
          simp [show ¬ox + (8 - left) ≤ ox + (7 - left) by omega]
        simp only [if_true]
        constructor
        · intro dx dy hdx hdy
          rw [ihFb dx dy hdx hdy, flFb dx dy hdx hdy, hcov dx (by omega), hbit, Bool.and_true, Bool.xor_assoc]
          congr 1
          by_cases h1 : dx = ox + (7 - left)
          · subst h1
            simp [hself]
          · simp [h1]
        · rw [ihHit, flHit]
          constructor
          · rintro (h | ⟨cx, hcx', hc, hl⟩)
            · rcases Bool.or_eq_true _ _ |>.mp h with h | h
              · exact Or.inl h
              · exact Or.inr ⟨_, hcx, by rw [hcov _ (by omega), hbit]; simp, h⟩
            · refine Or.inr ⟨cx, hcx', by rw [hcov _ (by omega), hc]; simp, ?_⟩
              rw [flFb cx cy hcx' hy] at hl
              have hne : cx ≠ ox + (7 - left) := fun he => by rw [he, hself] at hc; cases hc
              simpa [hne] using hl
          · rintro (h | ⟨cx, hcx', hc, hl⟩)
            · exact Or.inl (by simp [h])
            · rw [hcov _ (by omega), hbit] at hc
              by_cases hne : cx = ox + (7 - left)
              · exact Or.inl (by rw [← hne, hl]; simp)
              · refine Or.inr ⟨cx, hcx', by simpa [hne] using hc, ?_⟩
                rw [flFb cx cy hcx' hy]
                simpa [hne] using hl

/-- A cell that the rows not yet drawn cover: `row` is the next row, `left` how many there are. -/
def rowsCover (s : State) (ox oy left row cx cy : Nat) : Bool :=
  decide (oy + row ≤ cy) && decide (cy < oy + row + left) &&
    rowCovers (s.memRead (indexAddress s.i (cy - oy))) ox 8 cx

theorem rowsCover_succ (s : State) (ox oy left row cx cy : Nat) :
    rowsCover s ox oy (left + 1) row cx cy =
      ((decide (cy = oy + row) && rowCovers (s.memRead (indexAddress s.i row)) ox 8 cx) ||
        rowsCover s ox oy left (row + 1) cx cy) := by
  unfold rowsCover
  by_cases h : cy = oy + row
  · subst h
    simp [show oy + row - oy = row by omega]
  · simp [h, show oy + row ≤ cy ↔ oy + (row + 1) ≤ cy by omega,
      show cy < oy + row + (left + 1) ↔ cy < oy + (row + 1) + left by omega]

/-- The rest of the draw (R191): it flips the covered cells and no other, and it meets a collision exactly when a
covered on-screen cell was lit. -/
theorem drawSpriteRows_spec (s : State) (ox oy left row : Nat) (d : Drawing) :
    (∀ dx dy, dx < 64 → dy < 32 → fbRead (drawSpriteRows s ox oy left row d).fb dx dy =
      (fbRead d.fb dx dy ^^ rowsCover s ox oy left row dx dy)) ∧
    ((drawSpriteRows s ox oy left row d).hit = true ↔
      d.hit = true ∨ ∃ cx cy, cx < 64 ∧ cy < 32 ∧ rowsCover s ox oy left row cx cy = true ∧
        fbRead d.fb cx cy = true) := by
  induction left generalizing row d with
  | zero =>
    have hnone : ∀ cx cy, rowsCover s ox oy 0 row cx cy = false := fun cx cy => by
      unfold rowsCover
      by_cases h : oy + row ≤ cy <;> simp [h]
    simp [drawSpriteRows, hnone]
  | succ left ih =>
    simp only [drawSpriteRows]
    split
    · next hout =>
      have hnone : ∀ cx cy, cy < 32 → rowsCover s ox oy (left + 1) row cx cy = false := fun cx cy hcy => by
        unfold rowsCover
        simp [show ¬oy + row ≤ cy by omega]
      refine ⟨fun dx dy _ hdy => by simp [hnone dx dy hdy], ⟨Or.inl, ?_⟩⟩
      rintro (h | ⟨cx, cy, _, hcy, hcov, _⟩)
      · exact h
      · rw [hnone cx cy hcy] at hcov
        cases hcov
    · next hin =>
      have hy : oy + row < 32 := by omega
      obtain ⟨ihFb, ihHit⟩ :=
        ih (row + 1) (drawRowBits (s.memRead (indexAddress s.i row)) ox (oy + row) 8 d)
      obtain ⟨rowFb, rowHit⟩ :=
        drawRowBits_spec (s.memRead (indexAddress s.i row)) ox (oy + row) 8 d hy (by omega)
      have hcov := rowsCover_succ s ox oy left row
      have hlater : ∀ cx, rowsCover s ox oy left (row + 1) cx (oy + row) = false := fun cx => by
        unfold rowsCover
        simp [show ¬oy + (row + 1) ≤ oy + row by omega]
      constructor
      · intro dx dy hdx hdy
        rw [ihFb dx dy hdx hdy, rowFb dx dy hdx hdy, hcov, Bool.xor_assoc]
        congr 1
        by_cases h1 : dy = oy + row
        · subst h1
          simp [hlater]
        · simp [h1]
      · rw [ihHit, rowHit]
        constructor
        · rintro ((h | ⟨cx, hcx, hc, hl⟩) | ⟨cx, cy, hcx, hcy, hc, hl⟩)
          · exact Or.inl h
          · exact Or.inr ⟨cx, oy + row, hcx, hy, by rw [hcov]; simp [hc], hl⟩
          · refine Or.inr ⟨cx, cy, hcx, hcy, by rw [hcov, hc]; simp, ?_⟩
            rw [rowFb cx cy hcx hcy] at hl
            have hne : cy ≠ oy + row := fun he => by rw [he, hlater] at hc; cases hc
            simpa [hne] using hl
        · rintro (h | ⟨cx, cy, hcx, hcy, hc, hl⟩)
          · exact Or.inl (Or.inl h)
          · rw [hcov] at hc
            by_cases hne : cy = oy + row
            · subst hne
              exact Or.inl (Or.inr ⟨cx, hcx, by simpa [hlater] using hc, hl⟩)
            · refine Or.inr ⟨cx, cy, hcx, hcy, by simpa [hne] using hc, ?_⟩
              rw [rowFb cx cy hcx hcy]
              simpa [hne] using hl

theorem rowsCover_eq_spriteCovers (s : State) (a b : Byte) (n cx cy : Nat) :
    rowsCover s (originColumn a) (originRow b) n 0 cx cy = s.spriteCovers a b n cx cy := by
  simp [rowsCover, State.spriteCovers, rowCovers, indexAddress, Bool.and_assoc]

/-- The whole draw (R191). -/
theorem drawSprite_spec (s : State) (a b : Byte) (n : Nat) :
    (∀ cx cy, cx < 64 → cy < 32 → fbRead (drawSprite s a b n).fb cx cy =
      (fbRead s.fb cx cy ^^ s.spriteCovers a b n cx cy)) ∧
    ((drawSprite s a b n).hit = true ↔
      ∃ cx cy, cx < 64 ∧ cy < 32 ∧ s.spriteCovers a b n cx cy = true ∧ fbRead s.fb cx cy = true) := by
  have h := drawSpriteRows_spec s (originColumn a) (originRow b) n 0 { fb := s.fb, hit := false }
  simpa only [drawSprite, rowsCover_eq_spriteCovers, Bool.false_eq_true, false_or] using h

end Sys2Proof.Machine
end

