-- ==== Sys2Proof/Laws/PerInstr.lean ====
section
/-! SUPPORT. Facts about every instruction as syntax, one lemma per constructor. -/

namespace Sys2Proof.Laws

/-- Each instruction's row stands in the opcode map, and its canonical word selects that row under both readings of
ALIAS_DECODE (R75, R76). -/
def EncodingSelectsItsRow.Statement (i : Instr) : Prop :=
  i.row ∈ opcodeTable ∧ ∀ cfg : Config, i.row.selects cfg (encode i) = true

theorem EncodingSelectsItsRow.cls : EncodingSelectsItsRow.Statement .cls :=
  ⟨by simp [Instr.row, opcodeTable], fun cfg => by cases cfg with | mk b => cases b <;> decide⟩

theorem EncodingSelectsItsRow.ret : EncodingSelectsItsRow.Statement .ret :=
  ⟨by simp [Instr.row, opcodeTable], fun cfg => by cases cfg with | mk b => cases b <;> decide⟩

theorem EncodingSelectsItsRow.jp (nnn : Addr) : EncodingSelectsItsRow.Statement (.jp nnn) :=
  ⟨by simp [Instr.row, opcodeTable], fun cfg => by cases cfg with | mk b => cases b <;> simp only [Row.selects, Instr.row, rowJp, encode, formatNNN_and_F000] <;> rfl⟩

theorem EncodingSelectsItsRow.call (nnn : Addr) : EncodingSelectsItsRow.Statement (.call nnn) :=
  ⟨by simp [Instr.row, opcodeTable], fun cfg => by cases cfg with | mk b => cases b <;> simp only [Row.selects, Instr.row, rowCall, encode, formatNNN_and_F000] <;> rfl⟩

theorem EncodingSelectsItsRow.seImm (x : Reg) (kk : Byte) : EncodingSelectsItsRow.Statement (.seImm x kk) :=
  ⟨by simp [Instr.row, opcodeTable], fun cfg => by cases cfg with | mk b => cases b <;> simp only [Row.selects, Instr.row, rowSeImm, encode, formatXKK_and_F000] <;> rfl⟩

theorem EncodingSelectsItsRow.sneImm (x : Reg) (kk : Byte) : EncodingSelectsItsRow.Statement (.sneImm x kk) :=
  ⟨by simp [Instr.row, opcodeTable], fun cfg => by cases cfg with | mk b => cases b <;> simp only [Row.selects, Instr.row, rowSneImm, encode, formatXKK_and_F000] <;> rfl⟩

theorem EncodingSelectsItsRow.seReg (x y : Reg) : EncodingSelectsItsRow.Statement (.seReg x y) :=
  ⟨by simp [Instr.row, opcodeTable], fun cfg => by cases cfg with | mk b => cases b <;> simp only [Row.selects, Instr.row, rowSeReg, encode, formatXYN_and_F00F, formatXYN_and_F000] <;> rfl⟩

theorem EncodingSelectsItsRow.ldImm (x : Reg) (kk : Byte) : EncodingSelectsItsRow.Statement (.ldImm x kk) :=
  ⟨by simp [Instr.row, opcodeTable], fun cfg => by cases cfg with | mk b => cases b <;> simp only [Row.selects, Instr.row, rowLdImm, encode, formatXKK_and_F000] <;> rfl⟩

theorem EncodingSelectsItsRow.addImm (x : Reg) (kk : Byte) : EncodingSelectsItsRow.Statement (.addImm x kk) :=
  ⟨by simp [Instr.row, opcodeTable], fun cfg => by cases cfg with | mk b => cases b <;> simp only [Row.selects, Instr.row, rowAddImm, encode, formatXKK_and_F000] <;> rfl⟩

theorem EncodingSelectsItsRow.ldReg (x y : Reg) : EncodingSelectsItsRow.Statement (.ldReg x y) :=
  ⟨by simp [Instr.row, opcodeTable], fun cfg => by cases cfg with | mk b => cases b <;> simp only [Row.selects, Instr.row, rowLdReg, encode, formatXYN_and_F00F] <;> rfl⟩

theorem EncodingSelectsItsRow.orReg (x y : Reg) : EncodingSelectsItsRow.Statement (.orReg x y) :=
  ⟨by simp [Instr.row, opcodeTable], fun cfg => by cases cfg with | mk b => cases b <;> simp only [Row.selects, Instr.row, rowOrReg, encode, formatXYN_and_F00F] <;> rfl⟩

theorem EncodingSelectsItsRow.andReg (x y : Reg) : EncodingSelectsItsRow.Statement (.andReg x y) :=
  ⟨by simp [Instr.row, opcodeTable], fun cfg => by cases cfg with | mk b => cases b <;> simp only [Row.selects, Instr.row, rowAndReg, encode, formatXYN_and_F00F] <;> rfl⟩

theorem EncodingSelectsItsRow.xorReg (x y : Reg) : EncodingSelectsItsRow.Statement (.xorReg x y) :=
  ⟨by simp [Instr.row, opcodeTable], fun cfg => by cases cfg with | mk b => cases b <;> simp only [Row.selects, Instr.row, rowXorReg, encode, formatXYN_and_F00F] <;> rfl⟩

theorem EncodingSelectsItsRow.addReg (x y : Reg) : EncodingSelectsItsRow.Statement (.addReg x y) :=
  ⟨by simp [Instr.row, opcodeTable], fun cfg => by cases cfg with | mk b => cases b <;> simp only [Row.selects, Instr.row, rowAddReg, encode, formatXYN_and_F00F] <;> rfl⟩

theorem EncodingSelectsItsRow.subReg (x y : Reg) : EncodingSelectsItsRow.Statement (.subReg x y) :=
  ⟨by simp [Instr.row, opcodeTable], fun cfg => by cases cfg with | mk b => cases b <;> simp only [Row.selects, Instr.row, rowSubReg, encode, formatXYN_and_F00F] <;> rfl⟩

theorem EncodingSelectsItsRow.shrReg (x y : Reg) : EncodingSelectsItsRow.Statement (.shrReg x y) :=
  ⟨by simp [Instr.row, opcodeTable], fun cfg => by cases cfg with | mk b => cases b <;> simp only [Row.selects, Instr.row, rowShrReg, encode, formatXYN_and_F00F] <;> rfl⟩

theorem EncodingSelectsItsRow.subnReg (x y : Reg) : EncodingSelectsItsRow.Statement (.subnReg x y) :=
  ⟨by simp [Instr.row, opcodeTable], fun cfg => by cases cfg with | mk b => cases b <;> simp only [Row.selects, Instr.row, rowSubnReg, encode, formatXYN_and_F00F] <;> rfl⟩

theorem EncodingSelectsItsRow.shlReg (x y : Reg) : EncodingSelectsItsRow.Statement (.shlReg x y) :=
  ⟨by simp [Instr.row, opcodeTable], fun cfg => by cases cfg with | mk b => cases b <;> simp only [Row.selects, Instr.row, rowShlReg, encode, formatXYN_and_F00F] <;> rfl⟩

theorem EncodingSelectsItsRow.sneReg (x y : Reg) : EncodingSelectsItsRow.Statement (.sneReg x y) :=
  ⟨by simp [Instr.row, opcodeTable], fun cfg => by cases cfg with | mk b => cases b <;> simp only [Row.selects, Instr.row, rowSneReg, encode, formatXYN_and_F00F, formatXYN_and_F000] <;> rfl⟩

theorem EncodingSelectsItsRow.ldI (nnn : Addr) : EncodingSelectsItsRow.Statement (.ldI nnn) :=
  ⟨by simp [Instr.row, opcodeTable], fun cfg => by cases cfg with | mk b => cases b <;> simp only [Row.selects, Instr.row, rowLdI, encode, formatNNN_and_F000] <;> rfl⟩

theorem EncodingSelectsItsRow.jpV0 (nnn : Addr) : EncodingSelectsItsRow.Statement (.jpV0 nnn) :=
  ⟨by simp [Instr.row, opcodeTable], fun cfg => by cases cfg with | mk b => cases b <;> simp only [Row.selects, Instr.row, rowJpV0, encode, formatNNN_and_F000] <;> rfl⟩

theorem EncodingSelectsItsRow.rnd (x : Reg) (kk : Byte) : EncodingSelectsItsRow.Statement (.rnd x kk) :=
  ⟨by simp [Instr.row, opcodeTable], fun cfg => by cases cfg with | mk b => cases b <;> simp only [Row.selects, Instr.row, rowRnd, encode, formatXKK_and_F000] <;> rfl⟩

theorem EncodingSelectsItsRow.drw (x y : Reg) (n : Nibble) : EncodingSelectsItsRow.Statement (.drw x y n) :=
  ⟨by simp [Instr.row, opcodeTable], fun cfg => by cases cfg with | mk b => cases b <;> simp only [Row.selects, Instr.row, rowDrw, encode, formatXYN_and_F000] <;> rfl⟩

theorem EncodingSelectsItsRow.skp (x : Reg) : EncodingSelectsItsRow.Statement (.skp x) :=
  ⟨by simp [Instr.row, opcodeTable], fun cfg => by cases cfg with | mk b => cases b <;> simp only [Row.selects, Instr.row, rowSkp, encode, formatXKK_and_F0FF] <;> rfl⟩

theorem EncodingSelectsItsRow.sknp (x : Reg) : EncodingSelectsItsRow.Statement (.sknp x) :=
  ⟨by simp [Instr.row, opcodeTable], fun cfg => by cases cfg with | mk b => cases b <;> simp only [Row.selects, Instr.row, rowSknp, encode, formatXKK_and_F0FF] <;> rfl⟩

theorem EncodingSelectsItsRow.ldVxDT (x : Reg) : EncodingSelectsItsRow.Statement (.ldVxDT x) :=
  ⟨by simp [Instr.row, opcodeTable], fun cfg => by cases cfg with | mk b => cases b <;> simp only [Row.selects, Instr.row, rowLdVxDT, encode, formatXKK_and_F0FF] <;> rfl⟩

theorem EncodingSelectsItsRow.ldVxK (x : Reg) : EncodingSelectsItsRow.Statement (.ldVxK x) :=
  ⟨by simp [Instr.row, opcodeTable], fun cfg => by cases cfg with | mk b => cases b <;> simp only [Row.selects, Instr.row, rowLdVxK, encode, formatXKK_and_F0FF] <;> rfl⟩

theorem EncodingSelectsItsRow.ldDTVx (x : Reg) : EncodingSelectsItsRow.Statement (.ldDTVx x) :=
  ⟨by simp [Instr.row, opcodeTable], fun cfg => by cases cfg with | mk b => cases b <;> simp only [Row.selects, Instr.row, rowLdDTVx, encode, formatXKK_and_F0FF] <;> rfl⟩

theorem EncodingSelectsItsRow.ldSTVx (x : Reg) : EncodingSelectsItsRow.Statement (.ldSTVx x) :=
  ⟨by simp [Instr.row, opcodeTable], fun cfg => by cases cfg with | mk b => cases b <;> simp only [Row.selects, Instr.row, rowLdSTVx, encode, formatXKK_and_F0FF] <;> rfl⟩

theorem EncodingSelectsItsRow.addIVx (x : Reg) : EncodingSelectsItsRow.Statement (.addIVx x) :=
  ⟨by simp [Instr.row, opcodeTable], fun cfg => by cases cfg with | mk b => cases b <;> simp only [Row.selects, Instr.row, rowAddIVx, encode, formatXKK_and_F0FF] <;> rfl⟩

theorem EncodingSelectsItsRow.ldFVx (x : Reg) : EncodingSelectsItsRow.Statement (.ldFVx x) :=
  ⟨by simp [Instr.row, opcodeTable], fun cfg => by cases cfg with | mk b => cases b <;> simp only [Row.selects, Instr.row, rowLdFVx, encode, formatXKK_and_F0FF] <;> rfl⟩

theorem EncodingSelectsItsRow.ldBVx (x : Reg) : EncodingSelectsItsRow.Statement (.ldBVx x) :=
  ⟨by simp [Instr.row, opcodeTable], fun cfg => by cases cfg with | mk b => cases b <;> simp only [Row.selects, Instr.row, rowLdBVx, encode, formatXKK_and_F0FF] <;> rfl⟩

theorem EncodingSelectsItsRow.ldMemVx (x : Reg) : EncodingSelectsItsRow.Statement (.ldMemVx x) :=
  ⟨by simp [Instr.row, opcodeTable], fun cfg => by cases cfg with | mk b => cases b <;> simp only [Row.selects, Instr.row, rowLdMemVx, encode, formatXKK_and_F0FF] <;> rfl⟩

theorem EncodingSelectsItsRow.ldVxMem (x : Reg) : EncodingSelectsItsRow.Statement (.ldVxMem x) :=
  ⟨by simp [Instr.row, opcodeTable], fun cfg => by cases cfg with | mk b => cases b <;> simp only [Row.selects, Instr.row, rowLdVxMem, encode, formatXKK_and_F0FF] <;> rfl⟩

end Sys2Proof.Laws
end

