-- ==== Sys2Proof/Laws/RunEnd.lean ====
section
/-! SUPPORT. What the end of a run is, in terms of the fetched word and the pc, and how `runUntilEnd` goes through a
sequence of events. -/

namespace Sys2Proof.Machine

/-- A block is at a jump to itself when it runs, and the word it fetches is a jump to the address pc holds (R268). -/
theorem State.atSelfJump_iff (cfg : Config) (s : State) :
    s.atSelfJump cfg = true ↔
      s.status = .running ∧ ∃ nnn : Addr, decodeWord cfg s.fetchWord = some (.jp nnn) ∧ s.pc.toNat = nnn.toNat := by
  simp only [State.atSelfJump, Bool.and_eq_true, beq_iff_eq, and_assoc]
  refine and_congr_right fun _ => ⟨fun ⟨hpc, hd⟩ => ⟨_, hd, ?_⟩, ?_⟩
  · have h := congrArg BitVec.toNat hpc
    simp only [zext16OfAddr, BitVec.toNat_setWidth] at h
    have := BitVec.isLt (s.pc.extractLsb' 0 12)
    omega
  · rintro ⟨nnn, hd, hpc⟩
    have := nnn.isLt
    have here : s.pc.extractLsb' 0 12 = nnn := by
      apply BitVec.eq_of_toNat_eq
      simp only [BitVec.extractLsb'_toNat, Nat.shiftRight_zero]
      omega
    refine ⟨BitVec.eq_of_toNat_eq ?_, by rw [here, hd]⟩
    rw [here, zext16OfAddr, BitVec.toNat_setWidth]
    omega

/-- A state is no end of its run when it runs and is not at a jump to itself. -/
theorem State.runEnd_eq_none (cfg : Config) (s : State) :
    s.runEnd cfg = none ↔ s.status = .running ∧ s.atSelfJump cfg = false := by
  unfold State.runEnd
  cases s.status <;> cases s.atSelfJump cfg <;> simp

/-- A state that is the end of its run ends it whatever the host does next. -/
theorem runUntilEnd_of_end {cfg : Config} {s : State} {r : RunEnd} (h : s.runEnd cfg = some r) (es : List HostEvent) :
    runUntilEnd cfg es s = some r := by
  cases es <;> simp [runUntilEnd, h]

/-- A state that is no end passes the run on to the next event. -/
theorem runUntilEnd_step {cfg : Config} {s t : State} {e : HostEvent} (h : s.runEnd cfg = none)
    (ht : hostEvent cfg e s = .next t) (es : List HostEvent) :
    runUntilEnd cfg (e :: es) s = runUntilEnd cfg es t := by
  simp [runUntilEnd, h, ht]

end Sys2Proof.Machine
end

