-- ==== Sys2Proof/Tests/Slice0.lean ====
section
/-! SUPPORT. The model's own tests. Expected results come from the spec: the encodings of R72 and R75, the vectors of
95_test_vectors.md (section numbers and rules in the comments), and the examples inside the rules. Then one witness per
obligation that has hypotheses. -/

namespace Sys2Proof.Tests

open Sys2Proof.Machine

/-! Well-formedness: each check refuses an ill-formed term. -/

theorem test_wf_word_refuses_unknown : wordWellFormed decidedConfig 0x8128 = false := by decide

theorem test_wf_word_refuses_alias_when_off : wordWellFormed { aliasDecode := false } 0x5555 = false := by decide

theorem test_wf_word_accepts : wordWellFormed decidedConfig 0x5555 = true ∧
    wordWellFormed { aliasDecode := false } 0x5120 = true := by decide

theorem test_wf_bytes_refuses_one_and_three : bytesWellFormed [0x00] = false ∧
    bytesWellFormed [0x00, 0xE0, 0x12] = false := by decide

theorem test_wf_bytes_accepts_two : bytesWellFormed [0x00, 0xE0] = true := by decide

theorem test_wf_rom_refuses_3585_bytes : romWellFormed (List.replicate 3585 0) = false := by
  simp only [romWellFormed, List.length_replicate]
  decide

theorem test_wf_events_refuse_load_after_cycle :
    eventsWellFormed false [.loadMem 0x200 0x12, .cycle, .loadMem 0x201 0x34] = false := by decide

theorem test_wf_events_accept_load_after_reset :
    eventsWellFormed false [.cycle, .reset, .loadMem 0x201 0x34] = true := by decide

theorem test_wf_memory_refuses : Memory.wf [(0x201, 1), (0x200, 1)] = false ∧ Memory.wf [(0x200, 1), (0x200, 1)] = false ∧
    Memory.wf [(0x200, 0)] = false ∧ Memory.wf [(0x1000, 1)] = false := by decide

/-- R105: no two rows of the opcode map share a word. -/
theorem test_wf_rows_are_apart : List.Pairwise (fun r q => Row.apart r q = true) opcodeTable := by decide

/-! Decoding: each constructor from its word, written bit by bit from the patterns of R72 and R75. -/

theorem test_decode_display : decodeWord decidedConfig 0b0000000011100000 = some .cls ∧
    decodeWord decidedConfig 0b1101000100100101 = some (.drw 1 2 5) := by decide

theorem test_decode_control : decodeWord decidedConfig 0b0000000011101110 = some .ret ∧
    decodeWord decidedConfig 0b0001001000110100 = some (.jp 0x234) ∧
    decodeWord decidedConfig 0b0010001000010000 = some (.call 0x210) ∧
    decodeWord decidedConfig 0b1011001100000000 = some (.jpV0 0x300) := by decide

theorem test_decode_skips : decodeWord decidedConfig 0b0011000100000000 = some (.seImm 1 0x00) ∧
    decodeWord decidedConfig 0b0100101000000101 = some (.sneImm 10 0x05) ∧
    decodeWord decidedConfig 0b0101000100100000 = some (.seReg 1 2) ∧
    decodeWord decidedConfig 0b1001000100100000 = some (.sneReg 1 2) ∧
    decodeWord decidedConfig 0b1110000110011110 = some (.skp 1) ∧
    decodeWord decidedConfig 0b1110000110100001 = some (.sknp 1) := by decide

theorem test_decode_immediate : decodeWord decidedConfig 0b0110000100000101 = some (.ldImm 1 0x05) ∧
    decodeWord decidedConfig 0b0111000111111111 = some (.addImm 1 0xFF) ∧
    decodeWord decidedConfig 0b1100000100001111 = some (.rnd 1 0x0F) := by decide

theorem test_decode_alu : decodeWord decidedConfig 0b1000000100100000 = some (.ldReg 1 2) ∧
    decodeWord decidedConfig 0b1000000100100001 = some (.orReg 1 2) ∧
    decodeWord decidedConfig 0b1000000100100010 = some (.andReg 1 2) ∧
    decodeWord decidedConfig 0b1000000100100011 = some (.xorReg 1 2) ∧
    decodeWord decidedConfig 0b1000101010110100 = some (.addReg 10 11) ∧
    decodeWord decidedConfig 0b1000000100100101 = some (.subReg 1 2) ∧
    decodeWord decidedConfig 0b1000000100100110 = some (.shrReg 1 2) ∧
    decodeWord decidedConfig 0b1000000100100111 = some (.subnReg 1 2) ∧
    decodeWord decidedConfig 0b1000000100101110 = some (.shlReg 1 2) := by decide

theorem test_decode_index : decodeWord decidedConfig 0b1010001100000000 = some (.ldI 0x300) ∧
    decodeWord decidedConfig 0b1111000100011110 = some (.addIVx 1) ∧
    decodeWord decidedConfig 0b1111000100101001 = some (.ldFVx 1) ∧
    decodeWord decidedConfig 0b1111000100110011 = some (.ldBVx 1) ∧
    decodeWord decidedConfig 0b1111001001010101 = some (.ldMemVx 2) ∧
    decodeWord decidedConfig 0b1111001001100101 = some (.ldVxMem 2) := by decide

theorem test_decode_timers_and_key : decodeWord decidedConfig 0b1111010000000111 = some (.ldVxDT 4) ∧
    decodeWord decidedConfig 0b1111001100001010 = some (.ldVxK 3) ∧
    decodeWord decidedConfig 0b1111001100010101 = some (.ldDTVx 3) ∧
    decodeWord decidedConfig 0b1111001100011000 = some (.ldSTVx 3) := by decide

/-- Section 2.1: words unknown under both readings. -/
theorem test_decode_unknown : [0x8128, 0x8129, 0x812F, 0x8008, 0xE100, 0xE19F, 0xE0A0, 0xEFFF, 0xF000, 0xF1FF, 0xF056,
    0xFFFF, 0x0001, 0x00E1, 0x00EF, 0x0123].all (fun w => decodeWord { aliasDecode := true } w == none &&
      decodeWord { aliasDecode := false } w == none) = true := by decide

/-- Section 2.1: alias words under `ALIAS_DECODE = true`. -/
theorem test_decode_alias_on : decodeWord decidedConfig 0x0000 = some .cls ∧ decodeWord decidedConfig 0x0230 = some .cls ∧
    decodeWord decidedConfig 0x0FFE = some .ret ∧ decodeWord decidedConfig 0x5555 = some (.seReg 5 5) ∧
    decodeWord decidedConfig 0x9ABF = some (.sneReg 10 11) := by decide

/-- Section 2.1: the same words under `ALIAS_DECODE = false`. -/
theorem test_decode_alias_off : [0x0000, 0x0230, 0x00FE, 0x0FFE, 0x5555, 0x5121, 0x9ABF].all
    (fun w => decodeWord { aliasDecode := false } w == none) = true := by decide

/-- R51, R70: bytes, high octet first, and the rest of the list; one byte is not an instruction. -/
theorem test_decode_bytes :
    decodeBytes decidedConfig [0x12, 0x34, 0x00] = .ok (.jp 0x234, [0x00]) ∧
    decodeBytes decidedConfig [0x81, 0x28] = .error (.unknownOpcode 0x8128) ∧
    decodeBytes decidedConfig [0x12] = .error .tooShort := ⟨rfl, rfl, rfl⟩

/-! One step of each instruction. -/

/-- The next state of a step; the state itself where there is none. -/
def next (s : State) : State :=
  match step s with
  | .next t => t
  | .fault _ => s
  | .refused _ => s

/-- The reset state with the word `w` at 0x200, V1 = `a`, V2 = `b`. -/
def given (w : Nat) (a b : Byte) : State := ((State.reset.withFetchWord 16 w).setV 1 a).setV 2 b

/-- What a step of `w` leaves in V1 and VF, from V1 = `a`, V2 = `b`. -/
def alu (w : Nat) (a b : Byte) : Byte × Byte := ((next (given w a b)).getV 1, (next (given w a b)).getV vf)

/-- What a step of `w` leaves in pc, from V1 = `a`, V2 = `b`. -/
def pcAfter (w : Nat) (a b : Byte) : Word := (next (given w a b)).pc

/-- R120 example. -/
theorem test_ret : (next { given 0x00EE 0 0 with sp := 1, stack := State.reset.stack.set 0 0x0206 }).pc = 0x206 ∧
    (next { given 0x00EE 0 0 with sp := 1, stack := State.reset.stack.set 0 0x0206 }).sp = 0 := by decide

/-- Section 2.2: RET on the empty stack. -/
theorem test_ret_empty : (next (given 0x00EE 0 0)).status = .fault .stackUnderflow := by decide

/-- Section 2.2. -/
theorem test_jp : pcAfter 0x1ABC 0 0 = 0xABC := by decide

/-- R122 example: the pushed address is that of the instruction after the CALL. -/
theorem test_call : (next (given 0x2210 0 0)).stack[0] = 0x202 ∧ (next (given 0x2210 0 0)).sp = 1 ∧
    pcAfter 0x2210 0 0 = 0x210 := by decide

/-- Section 2.2: CALL on the full stack. -/
theorem test_call_full : (next { given 0x2400 0 0 with sp := 12 }).status = .fault .stackOverflow := by decide

/-- Section 2.2. -/
theorem test_jpV0 : (next ((given 0xBFFF 0 0).setV 0 0xFF)).pc = 0x10FE := by decide

/-- Section 2.2. -/
theorem test_seImm : pcAfter 0x3100 0 0 = 0x204 ∧ pcAfter 0x3100 1 0 = 0x202 := by decide

/-- Section 2.2. -/
theorem test_sneImm : pcAfter 0x4105 6 0 = 0x204 ∧ pcAfter 0x4105 5 0 = 0x202 := by decide

/-- Section 2.2. -/
theorem test_seReg : pcAfter 0x5120 0x33 0x33 = 0x204 ∧ pcAfter 0x5120 0x33 0x34 = 0x202 := by decide

/-- Section 2.2. -/
theorem test_sneReg : pcAfter 0x9120 0x33 0x34 = 0x204 ∧ pcAfter 0x9120 0x33 0x33 = 0x202 := by decide

/-- Section 2.3: VF as a plain destination. -/
theorem test_ldImm : (next (given 0x6FAB 0 0)).getV vf = 0xAB := by decide

/-- Section 2.3: the carry is dropped. -/
theorem test_addImm : alu 0x7101 0xFF 0 = (0x00, 0x00) ∧ alu 0x71FF 0x05 0 = (0x04, 0x00) := by decide

/-- Section 2.3. -/
theorem test_ldReg : alu 0x8120 0 0x7C = (0x7C, 0x00) := by decide

/-- Section 2.3. -/
theorem test_orReg : alu 0x8121 0xF0 0x3C = (0xFC, 0x00) := by decide

/-- Section 2.3. -/
theorem test_andReg : alu 0x8122 0xF0 0x3C = (0x30, 0x00) := by decide

/-- Section 2.3. -/
theorem test_xorReg : alu 0x8123 0xF0 0x3C = (0xCC, 0x00) := by decide

/-- S2 and section 2.3. -/
theorem test_addReg : alu 0x8124 0xFF 0x02 = (0x01, 0x01) ∧ alu 0x8124 0x7F 0x80 = (0xFF, 0x00) := by decide

/-- Section 2.3, D6: the old VF is the addend; with x = F the carry remains. -/
theorem test_addReg_vf : (next ((given 0x81F4 0x20 0).setV vf 1)).getV 1 = 0x21 ∧
    (next ((given 0x8F14 0x20 0).setV vf 0xF0)).getV vf = 0x01 := by decide

/-- S3 and section 2.3: equal operands give flag 0. -/
theorem test_subReg : alu 0x8125 0x05 0x03 = (0x02, 0x01) ∧ alu 0x8125 0x03 0x05 = (0xFE, 0x00) ∧
    alu 0x8125 0x05 0x05 = (0x00, 0x00) := by decide

/-- Section 2.3, D6: with x = F the difference remains. -/
theorem test_subReg_vf : (next ((given 0x8F15 0x04 0).setV vf 0x09)).getV vf = 0x05 := by decide

/-- Section 2.3: the source is Vy. -/
theorem test_shrReg : alu 0x8126 0xAA 0x80 = (0x40, 0x00) ∧ alu 0x8126 0x00 0xFF = (0x7F, 0x01) := by decide

/-- Section 2.3, D6: x = y. -/
theorem test_shrReg_same : alu 0x8116 0x05 0 = (0x02, 0x01) := by decide

/-- Section 2.3: both quirks of the flag. -/
theorem test_subnReg : alu 0x8127 0x03 0x05 = (0x02, 0x01) ∧ alu 0x8127 0x00 0x05 = (0x05, 0x00) ∧
    alu 0x8127 0x05 0x05 = (0x00, 0x01) := by decide

/-- Section 2.3, D6: x = y, Vy latched. -/
theorem test_subnReg_same : alu 0x8117 0x05 0 = (0x00, 0x01) := by decide

/-- Section 2.3. -/
theorem test_shlReg : alu 0x812E 0xAA 0x81 = (0x02, 0x01) ∧ alu 0x812E 0x00 0x40 = (0x80, 0x00) := by decide

/-- Section 2.3, D6: x = y. -/
theorem test_shlReg_same : alu 0x811E 0xC0 0 = (0x80, 0x01) := by decide

/-- Section 2.4. -/
theorem test_ldI : (next (given 0xAFFF 0 0)).i = 0xFFF := by decide

/-- Section 2.4: the flag is bit 12 of the sum; old bit 12 is discarded. -/
theorem test_addIVx : (next ((given 0xF11E 0x01 0).setI 0x0FFF)).i = 0x1000 ∧
    (next ((given 0xF11E 0x01 0).setI 0x0FFF)).getV vf = 1 ∧ (next ((given 0xF11E 0x05 0).setI 0x1000)).i = 0x0005 := by
  decide

/-- Section 2.4, D6, D8: the old VF is added; the flag is cleared otherwise. -/
theorem test_addIVx_vf : (next (((given 0xFF1E 0 0).setV vf 3).setI 0x0FFE)).i = 0x1001 ∧
    (next (((given 0xF11E 0x10 0).setV vf 1).setI 0x0300)).getV vf = 0 := by decide

/-- Section 2.4: no mask. -/
theorem test_ldFVx : (next (given 0xF129 0x0A 0)).i = 0x0082 ∧ (next (given 0xF129 0xFF 0)).i = 0x054B := by decide

/-- Section 2.4: the three addresses wrap one by one. -/
theorem test_ldBVx : (next ((given 0xF133 0x80 0).setI 0x0FFE)).memRead 0xFFE = 1 ∧
    (next ((given 0xF133 0x80 0).setI 0x0FFE)).memRead 0xFFF = 2 ∧
    (next ((given 0xF133 0x80 0).setI 0x0FFE)).memRead 0x000 = 8 := by decide

/-- Section 2.4: the run continues at 0x000, and `I` advances. -/
theorem test_ldMemVx : (next (((given 0xF155 0x22 0).setV 0 0x11).setI 0x0FFF)).memRead 0xFFF = 0x11 ∧
    (next (((given 0xF155 0x22 0).setV 0 0x11).setI 0x0FFF)).memRead 0x000 = 0x22 ∧
    (next (((given 0xF155 0x22 0).setV 0 0x11).setI 0x0FFF)).i = 0x1001 := by decide

/-- Section 2.4: `I` wraps at 16 bits. -/
theorem test_ldMemVx_wraps : (next (((given 0xF055 0 0).setV 0 0x77).setI 0xFFFF)).memRead 0xFFF = 0x77 ∧
    (next (((given 0xF055 0 0).setV 0 0x77).setI 0xFFFF)).i = 0x0000 := by decide

/-- Section 2.4. -/
theorem test_ldVxMem : (next (((given 0xF065 0 0).memWrite 0x001 0x5A).setI 0x1001)).getV 0 = 0x5A ∧
    (next (((given 0xF065 0 0).memWrite 0x001 0x5A).setI 0x1001)).i = 0x1002 := by decide

/-- The register after the last one loaded is left alone. -/
theorem test_ldVxMem_range : (next (((given 0xF165 0x01 0x33).memWrite 0x302 0x44).setI 0x0300)).getV 2 = 0x33 ∧
    (next (((given 0xF165 0x01 0x33).memWrite 0x301 0x44).setI 0x0300)).getV 1 = 0x44 := by decide

/-- Section 2.5: CLS leaves VF. -/
theorem test_cls : fbRead (next (((given 0x00E0 0 0).setFb (fbWrite fbClear 63 31 true)).setV vf 1)).fb 63 31 = false ∧
    (next ((given 0x00E0 0 0).setV vf 1)).getV vf = 1 := by decide

/-- Section 2.5: the origin wraps, the pixels are clipped. -/
theorem test_drw_clips : fbRead (next (((given 0xD121 0x3E 0).memWrite 0x300 0xFF).setI 0x300)).fb 63 0 = true ∧
    fbRead (next (((given 0xD121 0x3E 0).memWrite 0x300 0xFF).setI 0x300)).fb 0 0 = false ∧
    fbRead (next (((given 0xD121 0x45 0x21).memWrite 0x300 0x80).setI 0x300)).fb 5 1 = true := by decide

/-- Section 2.5: a lit cell under a sprite bit of 1 goes dark and sets VF. -/
theorem test_drw_collides :
    fbRead (next ((((given 0xD121 0 0).memWrite 0x300 0xC0).setI 0x300).setFb (fbWrite fbClear 0 0 true))).fb 0 0 = false ∧
    fbRead (next ((((given 0xD121 0 0).memWrite 0x300 0xC0).setI 0x300).setFb (fbWrite fbClear 0 0 true))).fb 1 0 = true ∧
    (next ((((given 0xD121 0 0).memWrite 0x300 0xC0).setI 0x300).setFb (fbWrite fbClear 0 0 true))).getV vf = 1 := by decide

/-- Section 2.6: a mask of 0 gives 0 whatever the byte is. -/
theorem test_rnd : ∃ t, exec (.rnd 1 0x00) State.reset = .next t ∧ t.getV 1 = 0 := ⟨_, rfl, by simp⟩

/-- Section 2.6: the key index is Vx mod 16. -/
theorem test_skp : (next ((given 0xE19E 0x1A 0).setKey 0x0400)).pc = 0x204 ∧ pcAfter 0xE19E 0x0A 0 = 0x202 := by decide

/-- Section 2.6. -/
theorem test_sknp : (next ((given 0xE1A1 0x0A 0).setKey 0x0400)).pc = 0x202 ∧ pcAfter 0xE1A1 0x0A 0 = 0x204 := by decide

/-- Section 2.6. -/
theorem test_ldVxDT : (next ((given 0xF407 0 0).setDT 0x06)).getV 4 = 0x06 := by decide

/-- Section 2.6. -/
theorem test_ldDTVx : (next ((given 0xF315 0 0).setV 3 0x07)).dt = 0x07 := by decide

/-- Section 2.6. -/
theorem test_ldSTVx : (next ((given 0xF318 0 0).setV 3 0x02)).st = 0x02 := by decide

/-- Section 2.6. -/
theorem test_ldVxK : (next (given 0xF30A 0 0)).wait = some 3 ∧ (next (given 0xF30A 0 0)).pc = 0x200 := by decide

/-! The cycle and the host events. -/

/-- Section 2.1: the fetch at 0xFFF takes its second byte from 0x000. -/
theorem test_fetch_wraps : (next (((State.reset.memWrite 0xFFF 0x12).memWrite 0x000 0x34).setPc 0x0FFF)).pc = 0x234 := by
  decide

/-- R106 example. -/
theorem test_unknown_word : (next (given 0x8128 0 0)).pc = 0x202 ∧
    cycleReport decidedConfig (given 0x8128 0 0) = some { word := 0x8128, pc0 := 0x200 } := by decide

/-- Section 2.6. -/
theorem test_timerTick : (State.timerTick ((given 0 0 0).setDT 0x01)).dt = 0x00 ∧
    (State.timerTick ((given 0 0 0).setDT 0x00)).dt = 0x00 ∧ (State.timerTick ((given 0 0 0).setST 0x80)).st = 0x7F := by
  decide

/-- Section 2.6: a key ends the wait, unless it was down already. -/
theorem test_keyDown : ((next (given 0xF30A 0 0)).keyDown 7).getV 3 = 0x07 ∧ ((next (given 0xF30A 0 0)).keyDown 7).pc = 0x202 ∧
    ((next ((given 0xF30A 0 0).setKey 0x0080)).keyDown 7).wait = some 3 := by decide

/-- Section 2.6: a key going up ends nothing. -/
theorem test_keyUp : ((next ((given 0xF30A 0 0).setKey 0x0081)).keyUp 7).key = 0x0001 ∧
    ((next ((given 0xF30A 0 0).setKey 0x0081)).keyUp 7).wait = some 3 := by decide

/-- R64, R261: glyph 0 stands at 0x050 after the boot sequence. -/
theorem test_font_glyph0 : fontTable.length = 80 ∧ fontTable.take 5 = [0xF0, 0x90, 0x90, 0x90, 0xF0] := by decide

/-- The table word the host places is decoded and run, at any pc. -/
theorem test_withFetchWord : decodeTableWord 16 0xD125 = some (.drw 1 2 5) ∧ decodeTableWord 16 0x8128 = none ∧
    (next ((State.reset.setPc 0xFFFF).withFetchWord 16 0x6007)).getV 0 = 0x07 ∧
    (next ((State.reset.setPc 0xFFFF).withFetchWord 16 0x6007)).pc = 0x0001 := by decide

/-- R268, D33: JP 202 at 0x200, JP 202 at 0x202. The first arrival is after one cycle, and later events do not matter;
the host may also stop before it. -/
def toSelfJump : State := ((given 0x1202 0 0).memWrite 0x202 0x12).memWrite 0x203 0x02

theorem test_runUntilEnd_selfJump : runUntilEnd decidedConfig [.cycle, .timerTick] toSelfJump = some (.selfJump (next toSelfJump)) ∧
    runUntilEnd decidedConfig [.timerTick] toSelfJump = some (.hostStopped toSelfJump) ∧ (next toSelfJump).pc = 0x202 := by
  decide

/-- R268: a fault is a run gone wrong. -/
theorem test_runUntilEnd_faulted : runUntilEnd decidedConfig [.cycle, .reset] (given 0x00EE 0 0) =
    some (.faulted .stackUnderflow) := by decide

/-- R268: `pc` 0x1200 fetches `1200` from 0x200, but the first cycle still changes `pc`. -/
theorem test_atSelfJump_compares_whole_pc : (given 0x1200 0 0).atSelfJump decidedConfig = true ∧
    ((given 0x1200 0 0).setPc 0x1200).atSelfJump decidedConfig = false := by decide

/-! Witnesses: for each obligation that has hypotheses, a concrete state that meets them all. -/

open Sys2Proof.Claims

/-- The reset state with `k` entries on the call stack. -/
def depth (k : Fin 13) : State := { State.reset with sp := k }

theorem test_witness_CallPushesAdvancedPcOrOverflows : (depth 11).sp.val < 12 ∧ (depth 12).sp.val = 12 := by decide

theorem test_witness_RetPopsYoungestEntryOrUnderflows : 0 < (depth 1).sp.val ∧ 0 < (depth 12).sp.val ∧
    (depth 0).sp.val = 0 := by decide

/-- CALL 210 at 0x200, RET at 0x210, one entry free. -/
def callRet : State := { ((depth 11).withFetchWord 16 0x2210).memWrite 0x211 0xEE with i := 0 }

theorem test_witness_CallThenRetReturnsAfterTheCall : callRet.status = .running ∧ callRet.sp.val < 12 ∧
    decodeWord decidedConfig callRet.fetchWord = some (.call 0x210) ∧
    decodeWord decidedConfig (callRet.memRead 0x210 ++ callRet.memRead 0x211) = some .ret := by decide

/-- The clauses `x ≠ vf` of the flag writers, and the operands of DrawTwiceRestoresTheScreen. -/
theorem test_witness_operand_is_not_vf : (0 : Reg) ≠ vf ∧ (14 : Reg) ≠ vf := by decide

/-- The premise of the storing statements (BCD, dump, round trip), with `I` at the top of memory. -/
theorem test_witness_canonical_memory : Memory.wf ((given 0xF133 0x80 0).setI 0x0FFE).mem = true := by decide

/-- DumpThenLoadRestoresRegisters: another state with the same `I` over the same memory. -/
theorem test_witness_DumpThenLoadRestoresRegisters : ((given 0xF155 1 2).setV 0 0xFF).i = (given 0xF155 1 2).i ∧
    ∀ a, ((given 0xF155 1 2).setV 0 0xFF).memRead a = (given 0xF155 1 2).memRead a := ⟨by decide, fun _ => rfl⟩

/-- StoreIsSeenByTheNextFetch: V0 falls on the high octet, V1 on the low octet across the wrap, in the state after the
dump, whose pc is the state's own. -/
theorem test_witness_StoreIsSeenByTheNextFetch : (0 : Reg) ≤ 1 ∧ (1 : Reg) ≤ 1 ∧
    ((State.reset.setPc 0x1FFF).setI 0x0FFF).pc.toNat % 4096 =
      (((State.reset.setPc 0x1FFF).setI 0x0FFF).i.toNat + 0) % 4096 ∧
    (((State.reset.setPc 0x1FFF).setI 0x0FFF).pc.toNat + 1) % 4096 =
      (((State.reset.setPc 0x1FFF).setI 0x0FFF).i.toNat + 1) % 4096 := by decide

/-- DrawFlipsCoveredCellsAndFlagsCollision: a covered cell at the bottom right corner, lit and dark. -/
theorem test_witness_DrawFlipsCoveredCellsAndFlagsCollision :
    (((State.reset.memWrite 0x300 0x80).setI 0x300).spriteCovers 0x3F 0x1F 1 63 31 = true ∧
      fbRead (fbWrite fbClear 63 31 true) 63 31 = true ∧ fbRead fbClear 63 31 = false) := by decide

theorem test_witness_CycleRunsTheDecodedInstruction : (given 0x1200 0 0).status = .running ∧
    decodeWord decidedConfig (given 0x1200 0 0).fetchWord = some (.jp 0x200) := by decide

theorem test_witness_UnknownWordOnlyAdvancesPc : (given 0x8128 0 0).status = .running ∧
    decodeWord decidedConfig (given 0x8128 0 0).fetchWord = none := by decide

theorem test_witness_CycleInFaultStateDoesNothing :
    (State.reset.enterFault .stackOverflow).status = .fault .stackOverflow := rfl

/-- CycleEndsNormallyOrInOneOfTwoFaults: both faults occur. -/
theorem test_witness_CycleEndsNormallyOrInOneOfTwoFaults : State.reset.status = .running ∧
    (next { given 0x2200 0 0 with sp := 12 }).status = .fault .stackOverflow ∧
    (next (given 0x00EE 0 0)).status = .fault .stackUnderflow := by decide

/-- HandlersTouchOnlyTheirState: an instruction under every one of its conditions. -/
theorem test_witness_HandlersTouchOnlyTheirState : State.reset.status = .running ∧ ¬isCallOrRet (.jp 0x200) ∧
    ¬isFlagWriter (.ldImm 14 0) ∧ xField (.ldImm 14 0) ≠ some vf ∧ ¬isDestination (.ldVxMem 13) 14 ∧
    ¬((14 : Reg) = vf ∧ isFlagWriter (.addReg 0 1)) ∧ ¬writesIndex (.ldBVx 0) ∧ ¬redirectsPc (.ldVxMem 15) := by
  simp [State.reset, isCallOrRet, isFlagWriter, xField, vf, isDestination, writesIndex, redirectsPc]

/-- LD V3, K at 0x200, waiting. -/
def waiting : State := next (given 0xF30A 0 0)

theorem test_witness_waiting_inv : waiting.Inv decidedConfig :=
  ⟨by decide, fun _ r h => by
    have e : waiting.wait = some 3 := by decide
    rw [e] at h
    cases h
    decide⟩

theorem test_witness_CycleWhileWaitingChangesNothing : waiting.Inv decidedConfig ∧ waiting.status = .running ∧
    waiting.wait = some 3 := ⟨test_witness_waiting_inv, by decide, by decide⟩

theorem test_witness_JumpToItselfIsAFixedPoint : (given 0x1200 0 0).status = .running ∧
    decodeWord decidedConfig (given 0x1200 0 0).fetchWord = some (.jp 0x200) ∧
    (given 0x1200 0 0).pc.toNat = (0x200 : Addr).toNat := by decide

theorem test_witness_HighAddressBitsAreUnobservable :
    SameUpToHighAddressBits ((State.reset.setI 0x0300).setPc 0x0200) ((State.reset.setI 0x1300).setPc 0xF200) :=
  ⟨fun _ => rfl, by decide, by decide, fun _ => rfl, by decide⟩

/-- TimerTickDecrementsToFloorZero, KeyUpClearsOnlyTheKey, and KeyDownSetsKeyAndEndsWait clause by clause. -/
theorem test_witness_KeyDownSetsKeyAndEndsWait : waiting.status = .running ∧ waiting.wait = some 3 ∧
    waiting.key.getLsbD (15 : Key).val = false ∧ (waiting.setKey 0x8000).key.getLsbD (15 : Key).val = true ∧
    State.reset.wait = none ∧ State.reset.key.getLsbD (0 : Key).val = false := by decide

theorem test_witness_OnlyResetLeavesAFaultState :
    (State.reset.enterFault .stackUnderflow).status = .fault .stackUnderflow ∧ HostEvent.timerTick ≠ HostEvent.reset :=
  ⟨rfl, by decide⟩

/-- BootPlacesFontAndProgram: the longest program that fits. -/
theorem test_witness_BootPlacesFontAndProgram : romWellFormed (List.replicate 3584 0x12) = true := by
  simp only [romWellFormed, List.length_replicate]
  decide

theorem test_witness_FaultStateCarriesNothingOver : (depth 12).freeCount = ((depth 12).setV 0 1).freeCount ∧
    (depth 12).sp.val = 12 ∧ ((depth 12).setV 0 1).sp.val = 12 ∧ (depth 0).sp.val = 0 := by decide

theorem test_witness_DispatchAgreesWithOpcodeMap : rowCls ∈ opcodeTable ∧ rowLdVxMem ∈ opcodeTable := by decide

/-- ReadingsOfAliasDecodeAgreeOnCanonicalWords: a word both readings take, and one only the first takes. -/
theorem test_witness_ReadingsOfAliasDecodeAgreeOnCanonicalWords :
    decodeWord { aliasDecode := false } 0x5120 = some (.seReg 1 2) ∧
    decodeWord { aliasDecode := true } 0x5121 = some (.seReg 1 2) := by decide

theorem test_witness_PlacedInstructionIsTheOneStepRuns : Memory.wf State.reset.mem = true := by decide

/-- CycleKeepsInvariant and HostEventsKeepInvariant, its three conditions on the event and the state in turn. -/
theorem test_witness_HostEventsKeepInvariant : waiting.Inv decidedConfig ∧ (∀ a b, HostEvent.timerTick ≠ .loadMem a b) ∧
    State.reset.wait = none ∧ (State.reset.enterFault .stackOverflow).status ≠ .running :=
  ⟨test_witness_waiting_inv, by simp, rfl, by simp⟩

theorem test_witness_WellFormedSessionsKeepInvariant :
    eventsWellFormed false [.loadMem 0x200 0xF3, .loadMem 0x201 0x0A, .cycle, .timerTick, .keyDown 7, .cycle] = true := by
  decide

theorem test_witness_CanonicalMemoriesThatReadAlikeAreEqual : Memory.wf [(0x200, 1), (0xFFF, 2)] = true := by decide

end Sys2Proof.Tests
end

section
/-! The reset state behind the machine's interface (R36). -/

namespace Sys2Proof.Machine

@[simp] theorem State.reset_pc : State.reset.pc = 0x200 := rfl

@[simp] theorem core_reset : core.reset = State.reset := rfl

/-- Settles O44: the entry point is the one reset value that the source itself states (R36). -/
theorem resetStartsAtAddress0x200 : Obligations.ResetStartsAtAddress0x200 := by
  constructor
  · rw [State.reset_pc]
    rfl
  · exact core_reset

end Sys2Proof.Machine
end

section
/-! The fetched word as a natural number (R51, R101). -/

namespace Sys2Proof.Machine

/-- A fetch addresses memory only modulo 4096 (R50), so `pc` and `pc + 1` wrap one by one. -/
theorem State.fetchWord_eq (s : State) : s.fetchWord =
    wordOfBytes (Memory.read s.mem (s.pc.toNat % 4096)) (Memory.read s.mem ((s.pc.toNat + 1) % 4096)) := rfl

/-- Settles O31: the fetch joins the two bytes by `wordOfBytes`, whose value weighs the first byte by 256. -/
theorem fetchIsBigEndian : Obligations.FetchIsBigEndian := by
  intro s
  rw [State.fetchWord_eq, wordOfBytes_toNat, Nat.mul_comm]

end Sys2Proof.Machine
end

section
/-! What a handler may touch (R111). Each operation on the state is a write to one part of it, so a handler is checked
write by write: every write needs a licence, which says that the instruction's rule names the part. -/

namespace Sys2Proof.Machine

open Sys2Proof.Claims

/-- The instructions whose rule writes the framebuffer (R190, R191). -/
def writesScreen (i : Instr) : Prop := i = .cls ∨ ∃ x y n, i = .drw x y n

/-- The instructions whose rule writes memory (R173, R174). -/
def writesMemory (i : Instr) : Prop := ∃ x, i = .ldBVx x ∨ i = .ldMemVx x

/-- `t` differs from `s` only in what the rule of `i` names: R111 without the faults, part by part. -/
structure ChangesOnlyNamed (i : Instr) (s t : State) : Prop where
  status : t.status = s.status
  register : ∀ r, ¬isDestination i r → ¬(r = vf ∧ isFlagWriter i) → t.getV r = s.getV r
  index : ¬writesIndex i → t.i = s.i
  pc : ¬redirectsPc i → t.pc = s.pc
  key : t.key = s.key
  wait : ¬(∃ x, i = .ldVxK x) → t.wait = s.wait
  callStack : ¬isCallOrRet i → t.sp = s.sp ∧ t.stack = s.stack
  delayTimer : ¬(∃ x, i = .ldDTVx x) → t.dt = s.dt
  soundTimer : ¬(∃ x, i = .ldSTVx x) → t.st = s.st
  screen : ¬writesScreen i → t.fb = s.fb
  memory : ¬writesMemory i → t.mem = s.mem
  freeCount : ¬(∃ x kk, i = .rnd x kk) → t.freeCount = s.freeCount

namespace ChangesOnlyNamed

/-- A handler that has written nothing yet. -/
theorem start (i : Instr) (s : State) : ChangesOnlyNamed i s s where
  status := rfl
  register _ _ _ := rfl
  index _ := rfl
  pc _ := rfl
  key := rfl
  wait _ := rfl
  callStack _ := ⟨rfl, rfl⟩
  delayTimer _ := rfl
  soundTimer _ := rfl
  screen _ := rfl
  memory _ := rfl
  freeCount _ := rfl

/-! One more write, by the licence for the part it changes. -/

variable {i : Instr} {s t : State} (h : ChangesOnlyNamed i s t)
include h

theorem setDestination {x : Reg} (hx : isDestination i x) (b : Byte) : ChangesOnlyNamed i s (t.setV x b) :=
  { h with
    register := fun r hdest hflag => by
      have hrx : r ≠ x := fun e => hdest (e ▸ hx)
      rw [State.getV_setV, if_neg hrx, h.register r hdest hflag] }

theorem setFlag (hi : isFlagWriter i) (b : Byte) : ChangesOnlyNamed i s (t.setV vf b) :=
  { h with
    register := fun r hdest hflag => by
      have hrvf : r ≠ vf := fun e => hflag ⟨e, hi⟩
      rw [State.getV_setV, if_neg hrvf, h.register r hdest hflag] }

theorem setI (hi : writesIndex i) (w : Word) : ChangesOnlyNamed i s (t.setI w) :=
  { h with index := fun hn => absurd hi hn }

theorem setPc (hi : redirectsPc i) (w : Word) : ChangesOnlyNamed i s (t.setPc w) :=
  { h with pc := fun hn => absurd hi hn }

theorem skipIf (hi : redirectsPc i) : ∀ c : Bool, ChangesOnlyNamed i s (t.skipIf c)
  | true => h.setPc hi _
  | false => h

theorem setWait (hi : ∃ x, i = .ldVxK x) (r : Option Reg) : ChangesOnlyNamed i s (t.setWait r) :=
  { h with wait := fun hn => absurd hi hn }

theorem push (hi : isCallOrRet i) (w : Word) : ChangesOnlyNamed i s (t.push w) :=
  { h with callStack := fun hn => absurd hi hn }

theorem pop (hi : isCallOrRet i) : ChangesOnlyNamed i s t.pop :=
  { h with callStack := fun hn => absurd hi hn }

theorem setDT (hi : ∃ x, i = .ldDTVx x) (b : Byte) : ChangesOnlyNamed i s (t.setDT b) :=
  { h with delayTimer := fun hn => absurd hi hn }

theorem setST (hi : ∃ x, i = .ldSTVx x) (b : Byte) : ChangesOnlyNamed i s (t.setST b) :=
  { h with soundTimer := fun hn => absurd hi hn }

theorem setFb (hi : writesScreen i) (f : Framebuffer) : ChangesOnlyNamed i s (t.setFb f) :=
  { h with screen := fun hn => absurd hi hn }

theorem memWrite (hi : writesMemory i) (a : Nat) (b : Byte) : ChangesOnlyNamed i s (t.memWrite a b) :=
  { h with memory := fun hn => absurd hi hn }

theorem countFree (hi : ∃ x kk, i = .rnd x kk) : ChangesOnlyNamed i s t.countFree :=
  { h with freeCount := fun hn => absurd hi hn }

/-- A register dump stores to memory and advances `I` (R174). -/
theorem dumpRegs (hmem : writesMemory i) (hidx : writesIndex i) (n : Nat) : ChangesOnlyNamed i s (t.dumpRegs n) := by
  induction n with
  | zero => exact h
  | succ n ih => exact (ih.memWrite hmem _ _).setI hidx _

/-- A register load of `n` rounds writes the registers below `n` and advances `I` (R175). -/
theorem loadRegs (hidx : writesIndex i) (n : Nat) (hdest : ∀ k, k < n → isDestination i (regOfNat k)) :
    ChangesOnlyNamed i s (t.loadRegs n) := by
  induction n with
  | zero => exact h
  | succ n ih =>
    have rounds := ih fun k hk => hdest k (by omega)
    exact (rounds.setDestination (hdest n (by omega)) _).setI hidx _

end ChangesOnlyNamed

/-- The registers a load up to Vx goes through are its destinations (R175). -/
theorem isDestination_ldVxMem_regOfNat (x : Reg) (k : Nat) (hk : k < x.val + 1) :
    isDestination (.ldVxMem x) (regOfNat k) := by
  have := x.isLt
  simp only [isDestination, Fin.le_def, regOfNat_val]
  omega

/-- What R111 leaves a handler of `i` run on `s`: a next state that keeps to the rule, or a fault of CALL or RET. -/
def KeepsToRule (i : Instr) (s : State) (o : Host.Outcome State Fault Refusal) : Prop :=
  ∃ t, o = .next t ∧ (ChangesOnlyNamed i s t ∨ (isCallOrRet i ∧ t.status ≠ .running))

theorem ChangesOnlyNamed.keepsToRule {i : Instr} {s t : State} (h : ChangesOnlyNamed i s t) :
    KeepsToRule i s (.next t) := ⟨t, rfl, .inl h⟩

theorem KeepsToRule.enterFault {i : Instr} (hi : isCallOrRet i) (s : State) (cause : Fault) :
    KeepsToRule i s (.next (s.enterFault cause)) := ⟨_, rfl, .inr ⟨hi, by simp⟩⟩

/-- RET either faults or pops and jumps to what it popped (R120). -/
theorem execRet_keepsToRule (s : State) : KeepsToRule .ret s (execRet s) := by
  have hret : isCallOrRet .ret := .inl rfl
  unfold execRet
  split
  · exact .enterFault hret s _
  · exact (((ChangesOnlyNamed.start _ s).pop hret).setPc (.inl hret) _).keepsToRule

/-- CALL either faults or pushes and jumps (R122). -/
theorem execCall_keepsToRule (nnn : Addr) (s : State) : KeepsToRule (.call nnn) s (execCall nnn s) := by
  have hcall : isCallOrRet (.call nnn) := .inr ⟨nnn, rfl⟩
  unfold execCall
  split
  · exact .enterFault hcall s _
  · exact (((ChangesOnlyNamed.start _ s).push hcall _).setPc (.inl hcall) _).keepsToRule

/-- R111: every handler's writes, one after the other in the order its rule lists them, each under its licence. -/
theorem exec_keepsToRule (i : Instr) (s : State) : KeepsToRule i s (exec i s) := by
  have start := ChangesOnlyNamed.start i s
  cases i with
  | ret => exact execRet_keepsToRule s
  | call nnn => exact execCall_keepsToRule nnn s
  | cls => exact (start.setFb (.inl rfl) _).keepsToRule
  | jp | jpV0 => exact (start.setPc (by simp [redirectsPc]) _).keepsToRule
  | seImm | sneImm | seReg | sneReg | skp | sknp => exact (start.skipIf (by simp [redirectsPc]) _).keepsToRule
  | ldImm | addImm | ldReg | orReg | andReg | xorReg | ldVxDT => exact (start.setDestination rfl _).keepsToRule
  | addReg | shrReg | subnReg | shlReg =>
    exact ((start.setDestination rfl _).setFlag (by simp [isFlagWriter]) _).keepsToRule
  | subReg => exact ((start.setFlag (by simp [isFlagWriter]) _).setDestination rfl _).keepsToRule
  | ldI | ldFVx => exact (start.setI (by simp [writesIndex]) _).keepsToRule
  | addIVx =>
    exact ((start.setI (by simp [writesIndex]) _).setFlag (by simp [isFlagWriter]) _).keepsToRule
  | drw x y n => exact ((start.setFb (.inr ⟨x, y, n, rfl⟩) _).setFlag (by simp [isFlagWriter]) _).keepsToRule
  | rnd x kk => exact ((start.setDestination rfl _).countFree ⟨x, kk, rfl⟩).keepsToRule
  | ldVxK x => exact ((start.setWait ⟨x, rfl⟩ _).setPc (by simp [redirectsPc]) _).keepsToRule
  | ldDTVx x => exact (start.setDT ⟨x, rfl⟩ _).keepsToRule
  | ldSTVx x => exact (start.setST ⟨x, rfl⟩ _).keepsToRule
  | ldBVx x =>
    have hmem : writesMemory (.ldBVx x) := ⟨x, .inl rfl⟩
    exact (((start.memWrite hmem _ _).memWrite hmem _ _).memWrite hmem _ _).keepsToRule
  | ldMemVx x => exact (start.dumpRegs ⟨x, .inr rfl⟩ (by simp [writesIndex]) _).keepsToRule
  | ldVxMem x =>
    exact (start.loadRegs (by simp [writesIndex]) _ (isDestination_ldVxMem_regOfNat x)).keepsToRule

/-- VF is a destination only by being Vx (R23): the register load reaches it only with x = F. -/
theorem xField_of_isDestination_vf {i : Instr} (h : isDestination i vf) : xField i = some vf := by
  cases i with
  | ldVxMem x =>
    have hx : vf ≤ x := h
    exact congrArg some (Fin.last_le_iff.mp hx)
  | ldImm | addImm | ldReg | orReg | andReg | xorReg | addReg | subReg | shrReg | subnReg | shlReg | rnd | ldVxDT =>
    exact congrArg some h.symm
  | _ => exact h.elim

/-- Settles O37: a handler either keeps to its rule, which has every clause, or is a CALL or RET that has faulted. -/
theorem handlersTouchOnlyTheirState : Obligations.HandlersTouchOnlyTheirState := by
  intro i s hrunning
  obtain ⟨t, hexec, hnamed | ⟨hcall, hfault⟩⟩ := exec_keepsToRule i s
  · have hvf : ¬isFlagWriter i → xField i ≠ some vf → t.getV vf = s.getV vf := fun hflag hx =>
      hnamed.register vf (fun hd => hx (xField_of_isDestination_vf hd)) fun hw => hflag hw.2
    have hscreen : i ≠ .cls → (∀ x y n, i ≠ .drw x y n) → t.fb = s.fb := fun hcls hdrw =>
      hnamed.screen (by simp [writesScreen, hcls, hdrw])
    have hmemory : (∀ x, i ≠ .ldBVx x) → (∀ x, i ≠ .ldMemVx x) → t.mem = s.mem := fun hb hd =>
      hnamed.memory (by simp [writesMemory, hb, hd])
    exact ⟨t, hexec, fun _ => hnamed.status.trans hrunning, fun _ =>
      ⟨hvf, hnamed.register, hnamed.index, hnamed.pc, hnamed.key, fun hn => hnamed.wait (by simp [hn]),
        hnamed.callStack, fun hn => hnamed.delayTimer (by simp [hn]), fun hn => hnamed.soundTimer (by simp [hn]),
        hscreen, hmemory, fun hn => hnamed.freeCount (by simp [hn])⟩⟩
  · exact ⟨t, hexec, fun hn => absurd hcall hn, fun hr => absurd hr hfault⟩

end Sys2Proof.Machine
end

section
/-! The frame as a rule per write: a write keeps every frame that leaves out the part it changes. -/

namespace Sys2Proof.Machine

open Sys2Proof.Claims

theorem frame_refl (regs : List Reg) (parts : List Part) (s : State) : frame regs parts s s := by
  refine ⟨fun _ _ => rfl, fun p _ => ?_⟩
  cases p with
  | callStack => exact ⟨rfl, rfl⟩
  | memory => exact fun _ => rfl
  | screen => exact fun _ _ _ _ => rfl
  | _ => rfl

section
variable {regs : List Reg} {parts : List Part} {s t : State} (h : frame regs parts s t)
include h

theorem frame_setPc (hpc : .pc ∈ parts) (w : Word) : frame regs parts s (t.setPc w) := by
  refine ⟨h.1, fun p hp => ?_⟩
  cases p with
  | pc => exact absurd hpc hp
  | _ => exact h.2 _ hp

theorem frame_push (hstack : .callStack ∈ parts) (w : Word) : frame regs parts s (t.push w) := by
  refine ⟨h.1, fun p hp => ?_⟩
  cases p with
  | callStack => exact absurd hstack hp
  | _ => exact h.2 _ hp

theorem frame_skipIf (hpc : .pc ∈ parts) : ∀ c : Bool, frame regs parts s (t.skipIf c)
  | true => frame_setPc h hpc _
  | false => h

end

end Sys2Proof.Machine
end

section
/-! Control transfer (41_control_flow.md): jumps, CALL and the skips on registers. -/

namespace Sys2Proof.Machine

open Sys2Proof.Claims

@[simp] theorem zext16OfAddr_toNat (nnn : Addr) : (zext16OfAddr nnn).toNat = nnn.toNat :=
  BitVec.toNat_setWidth_of_le (by decide)

@[simp] theorem zext16OfByte_toNat (b : Byte) : (zext16OfByte b).toNat = b.toNat :=
  BitVec.toNat_setWidth_of_le (by decide)

theorem exec_call_of_room (nnn : Addr) {s : State} (room : s.sp ≠ 12) :
    exec (.call nnn) s = .next ((s.push s.pc).setPc (zext16OfAddr nnn)) := if_neg room

theorem exec_call_of_full (nnn : Addr) {s : State} (full : s.sp = 12) :
    exec (.call nnn) s = .next (s.enterFault .stackOverflow) := if_pos full

/-- Settles O3: the handler tests for the full stack before it pushes (R221), so each case is one branch of it. -/
theorem callPushesAdvancedPcOrOverflows : Obligations.CallPushesAdvancedPcOrOverflows := by
  intro nnn s
  constructor
  · intro hlt
    have room : s.sp ≠ 12 := fun full => absurd hlt (by rw [full]; decide)
    refine ⟨_, exec_call_of_room nnn room, ?_, ?_, ?_, ?_⟩
    · exact State.push_sp_val s s.pc room
    · exact fun j => State.push_stack_get s s.pc j.val j.isLt
    · exact zext16OfAddr_toNat nnn
    · exact frame_setPc (frame_push (frame_refl _ _ s) (by decide) _) (by decide) _
  · intro hfull
    exact ⟨_, exec_call_of_full nnn (Fin.ext hfull), State.enterFault_status s _⟩

/-- Settles O1: the handler is one write to `pc`. -/
theorem jumpSetsPcToAddress : Obligations.JumpSetsPcToAddress := fun nnn s =>
  ⟨_, rfl, zext16OfAddr_toNat nnn, frame_setPc (frame_refl _ _ s) (by decide) _⟩

/-- Settles O2: the handler is one write to `pc`, and the 16-bit sum of the widened operands is their sum modulo
65536. -/
theorem jumpWithOffsetAddsV0 : Obligations.JumpWithOffsetAddsV0 := by
  intro nnn s
  refine ⟨_, rfl, ?_, frame_setPc (frame_refl _ _ s) (by decide) _⟩
  rw [State.setPc_pc, BitVec.toNat_add, zext16OfAddr_toNat, zext16OfByte_toNat]

/-! The skips. Each is `skipIf` under a test, whose meaning is a condition on the operands as numbers. -/

theorem State.skipIf_pc_toNat (s : State) {c : Bool} {P : Prop} [Decidable P] (hc : c = true ↔ P) :
    (s.skipIf c).pc.toNat = (s.pc.toNat + 2 * bit P) % 65536 := by
  have hlt := s.pc.isLt
  rw [State.skipIf_pc]
  by_cases hP : P
  · rw [if_pos (hc.mpr hP), bit, if_pos hP, BitVec.toNat_add]
    rfl
  · rw [if_neg (mt hc.mp hP), bit, if_neg hP]
    omega

/-- An instruction that is a skip under the test `c` moves `pc` by 2 exactly when what `c` tests holds, and touches
nothing else. -/
theorem skips_of_exec_eq {i : Instr} {s : State} {c : Bool} {P : Prop} [Decidable P]
    (hexec : exec i s = .next (s.skipIf c)) (hc : c = true ↔ P) :
    ∃ t, exec i s = .next t ∧ t.pc.toNat = (s.pc.toNat + 2 * bit P) % 65536 ∧ frame [] [.pc] s t :=
  ⟨_, hexec, s.skipIf_pc_toNat hc, frame_skipIf (frame_refl _ _ s) (by decide) c⟩

theorem byte_beq_iff (a b : Byte) : (a == b) = true ↔ a.toNat = b.toNat :=
  beq_iff_eq.trans BitVec.toNat_inj.symm

theorem byte_bne_iff (a b : Byte) : (a != b) = true ↔ a.toNat ≠ b.toNat :=
  bne_iff_ne.trans BitVec.toNat_inj.not.symm

/-- Settles O5: SE and SNE with an immediate are skips under `==` and `!=`. -/
theorem skipsCompareRegisterWithImmediate : Obligations.SkipsCompareRegisterWithImmediate := fun _ _ _ =>
  ⟨skips_of_exec_eq rfl (byte_beq_iff _ _), skips_of_exec_eq rfl (byte_bne_iff _ _)⟩

/-- Settles O6: SE and SNE with two registers are skips under `==` and `!=`. -/
theorem skipsCompareTwoRegisters : Obligations.SkipsCompareTwoRegisters := fun _ _ _ =>
  ⟨skips_of_exec_eq rfl (byte_beq_iff _ _), skips_of_exec_eq rfl (byte_bne_iff _ _)⟩

end Sys2Proof.Machine
end

section
/-! Register load and the operations without a flag (42_alu.md, R140 to R145): each handler is one register write, so
what it answers is the written byte and the frame of that write. -/

namespace Sys2Proof.Machine

open Sys2Proof.Claims

theorem State.getV_setV_same (s : State) (x : Reg) (b : Byte) : (s.setV x b).getV x = b := by
  rw [State.getV_setV, if_pos rfl]

theorem frame_setV {regs : List Reg} {parts : List Part} {s t : State} (h : frame regs parts s t) {x : Reg}
    (hx : x ∈ regs) (b : Byte) : frame regs parts s (t.setV x b) := by
  refine ⟨fun r hr => ?_, fun p hp => ?_⟩
  · have hrx : r ≠ x := (ne_of_mem_of_not_mem hx hr).symm
    rw [State.getV_setV, if_neg hrx, h.1 r hr]
  · cases p with
    | _ => exact h.2 _ hp

/-- One register write, and nothing before or after it, changes that register alone. -/
theorem frame_singleton_setV (s : State) (x : Reg) (b : Byte) : frame [x] [] s (s.setV x b) :=
  frame_setV (frame_refl _ _ s) (List.mem_singleton_self x) b

/-- Settles O9: each handler is one register write, and the byte of ADD is a sum of bytes, so modulo 256. -/
theorem loadsAndAddImmediate : Obligations.LoadsAndAddImmediate := by
  intro x y kk s
  refine ⟨⟨_, rfl, ?load, frame_singleton_setV s x _⟩, ⟨_, rfl, ?add, frame_singleton_setV s x _⟩,
    ⟨_, rfl, ?copy, frame_singleton_setV s x _⟩⟩
  case load => exact s.getV_setV_same x kk
  case add => rw [State.getV_setV_same, BitVec.toNat_add]
  case copy => exact s.getV_setV_same x (s.getV y)

/-- Settles O10: each handler is one register write of a bitwise operation, read off at each bit. -/
theorem bitwiseOperationsChangeNoFlag : Obligations.BitwiseOperationsChangeNoFlag := by
  intro x y s
  refine ⟨⟨_, rfl, fun j _ => ?or, frame_singleton_setV s x _⟩, ⟨_, rfl, fun j _ => ?and, frame_singleton_setV s x _⟩,
    ⟨_, rfl, fun j _ => ?xor, frame_singleton_setV s x _⟩⟩
  case or => rw [State.getV_setV_same, BitVec.getLsbD_or, Bool.or_eq_true]
  case and => rw [State.getV_setV_same, BitVec.getLsbD_and, Bool.and_eq_true]
  case xor => rw [State.getV_setV_same, BitVec.getLsbD_xor, Bool.xor_iff_ne]

end Sys2Proof.Machine
end

section
/-! The index register and memory (43_index_memory.md): LD I is one write to `I`, LD B is three stores whose addresses
differ modulo 4096. -/

namespace Sys2Proof.Machine

open Sys2Proof.Claims

section
variable {regs : List Reg} {parts : List Part} {s t : State} (h : frame regs parts s t)
include h

theorem frame_setI (hindex : .index ∈ parts) (w : Word) : frame regs parts s (t.setI w) := by
  refine ⟨h.1, fun p hp => ?_⟩
  cases p with
  | index => exact absurd hindex hp
  | _ => exact h.2 _ hp

theorem frame_memWrite (hmemory : .memory ∈ parts) (a : Nat) (b : Byte) :
    frame regs parts s (t.memWrite a b) := by
  refine ⟨h.1, fun p hp => ?_⟩
  cases p with
  | memory => exact absurd hmemory hp
  | _ => exact h.2 _ hp

end

/-- Settles O17: the handler is one write to `I`, of the address widened to 16 bits. -/
theorem loadIndexSetsAddress : Obligations.LoadIndexSetsAddress := fun nnn s =>
  ⟨_, rfl, zext16OfAddr_toNat nnn, frame_setI (frame_refl _ _ s) (by decide) _⟩

/-! The three digits are the quotients and remainders of `Vx` as a number. -/

theorem bcdHundreds_toNat (a : Byte) : (bcdHundreds a).toNat = a.toNat / 100 := BitVec.toNat_udiv

theorem bcdTens_toNat (a : Byte) : (bcdTens a).toNat = a.toNat / 10 % 10 := by
  rw [bcdTens, BitVec.toNat_umod, BitVec.toNat_udiv]
  rfl

theorem bcdOnes_toNat (a : Byte) : (bcdOnes a).toNat = a.toNat % 10 := BitVec.toNat_umod

/-- Read after three consecutive stores, the latest store first. -/
theorem State.memRead_memWrite_three {s : State} (h : Memory.wf s.mem = true) (n c : Nat) (b₀ b₁ b₂ : Byte) :
    (((s.memWrite n b₀).memWrite (n + 1) b₁).memWrite (n + 2) b₂).memRead c =
      if c % 4096 = (n + 2) % 4096 then b₂ else if c % 4096 = (n + 1) % 4096 then b₁
      else if c % 4096 = n % 4096 then b₀ else s.memRead c := by
  have h₀ := s.memWrite_wf h n b₀
  have h₁ := (s.memWrite n b₀).memWrite_wf h₀ (n + 1) b₁
  rw [State.memRead_memWrite _ h₁, State.memRead_memWrite _ h₀, State.memRead_memWrite _ h]

/-- LD B as its three stores (R173). -/
theorem exec_ldBVx (x : Reg) (s : State) : exec (.ldBVx x) s =
    .next (((s.memWrite s.i.toNat (bcdHundreds (s.getV x))).memWrite (s.i.toNat + 1) (bcdTens (s.getV x))).memWrite
      (s.i.toNat + 2) (bcdOnes (s.getV x))) := rfl

/-- Settles O20: three consecutive addresses stay distinct modulo 4096, across the wrap too, so no digit is written
over by a later one. -/
theorem bcdStoresThreeDigits : Obligations.BcdStoresThreeDigits := by
  intro x s hwf
  refine ⟨_, exec_ldBVx x s, ?hundreds, ?tens, ?ones, fun a hoff => ?untouched, ?frame⟩
  case hundreds =>
    rw [State.memRead_memWrite_three hwf, if_neg (by omega), if_neg (by omega), if_pos rfl, bcdHundreds_toNat]
  case tens =>
    rw [State.memRead_memWrite_three hwf, if_neg (by omega), if_pos rfl, bcdTens_toNat]
  case ones =>
    rw [State.memRead_memWrite_three hwf, if_pos rfl, bcdOnes_toNat]
  case untouched =>
    have hfirst : a % 4096 ≠ s.i.toNat % 4096 := hoff 0 (by decide)
    rw [State.memRead_memWrite_three hwf, if_neg (hoff 2 (by decide)), if_neg (hoff 1 (by decide)), if_neg hfirst]
  case frame =>
    have hmem : Part.memory ∈ [Part.memory] := List.mem_singleton_self _
    exact frame_memWrite (frame_memWrite (frame_memWrite (frame_refl _ _ s) hmem _ _) hmem _ _) hmem _ _

end Sys2Proof.Machine
end

section
/-! The display (44_display.md): CLS is one write to the framebuffer. -/

namespace Sys2Proof.Machine

open Sys2Proof.Claims

theorem frame_setFb {regs : List Reg} {parts : List Part} {s t : State} (h : frame regs parts s t)
    (hscreen : .screen ∈ parts) (f : Framebuffer) : frame regs parts s (t.setFb f) := by
  refine ⟨h.1, fun p hp => ?_⟩
  cases p with
  | screen => exact absurd hscreen hp
  | _ => exact h.2 _ hp

/-- Settles O25: the handler is one write of the cleared framebuffer, of which every cell reads 0. -/
theorem clearScreenDarkensEveryCell : Obligations.ClearScreenDarkensEveryCell := fun s =>
  ⟨_, rfl, fun cx cy _ _ => fbRead_clear cx cy, frame_setFb (frame_refl _ _ s) (by decide) _⟩

end Sys2Proof.Machine
end

section
/-! The timers (45_timers_keys_random.md, R203 to R205): each handler is one write, of a timer or of `Vx`. -/

namespace Sys2Proof.Machine

open Sys2Proof.Claims

section
variable {regs : List Reg} {parts : List Part} {s t : State} (h : frame regs parts s t)
include h

theorem frame_setDT (htimer : .delayTimer ∈ parts) (b : Byte) : frame regs parts s (t.setDT b) := by
  refine ⟨h.1, fun p hp => ?_⟩
  cases p with
  | delayTimer => exact absurd htimer hp
  | _ => exact h.2 _ hp

theorem frame_setST (htimer : .soundTimer ∈ parts) (b : Byte) : frame regs parts s (t.setST b) := by
  refine ⟨h.1, fun p hp => ?_⟩
  cases p with
  | soundTimer => exact absurd htimer hp
  | _ => exact h.2 _ hp

end

/-- Settles O29: each handler is one write of the byte it copies, with the frame of that write. -/
theorem timerRegisterCopies : Obligations.TimerRegisterCopies := by
  intro x s
  refine ⟨⟨_, rfl, ?readDelay, frame_singleton_setV s x _⟩,
    ⟨_, rfl, ?setDelay, frame_setDT (frame_refl _ _ s) (List.mem_singleton_self _) _⟩,
    ⟨_, rfl, ?setSound, frame_setST (frame_refl _ _ s) (List.mem_singleton_self _) _⟩⟩
  case readDelay => exact s.getV_setV_same x s.dt
  case setDelay => exact s.setDT_dt (s.getV x)
  case setSound => exact s.setST_st (s.getV x)

end Sys2Proof.Machine
end

section
/-! The unknown path of a cycle (R106, R223): the machine advances past the word, and the report goes to the host. -/

namespace Sys2Proof.Machine

open Sys2Proof.Claims

theorem frame_advance {regs : List Reg} {parts : List Part} {s t : State} (h : frame regs parts s t)
    (hpc : .pc ∈ parts) : frame regs parts s t.advance := frame_setPc h hpc _

theorem State.advance_pc_toNat (s : State) : s.advance.pc.toNat = (s.pc.toNat + 2) % 65536 :=
  BitVec.toNat_add s.pc 2

section
variable {cfg : Config} {s : State} (running : s.status = .running) (unknown : decodeWord cfg s.fetchWord = none)
include running unknown

theorem cycleWith_of_unknown : cycleWith cfg s = .next s.advance := by
  simp only [cycleWith, running, unknown]

theorem cycleReport_of_unknown : cycleReport cfg s = some { word := s.fetchWord, pc0 := s.pc } := by
  simp only [cycleReport, running, unknown]

end

/-- Settles O33: the cycle answers the advanced state, which is one write to `pc`. -/
theorem unknownWordOnlyAdvancesPc : Obligations.UnknownWordOnlyAdvancesPc := fun _ s running unknown =>
  ⟨cycleReport_of_unknown running unknown, s.advance, cycleWith_of_unknown running unknown, s.advance_pc_toNat,
    frame_advance (frame_refl _ _ s) (List.mem_singleton_self _)⟩

end Sys2Proof.Machine
end

section
/-! Host events in a running state (R231, R233): each is its effect, a write of the timers or of the keys. -/

namespace Sys2Proof.Machine

open Sys2Proof.Claims

theorem State.whileRunning_of_running {s : State} (running : s.status = .running) (effect : State) :
    s.whileRunning effect = effect := by
  simp only [State.whileRunning, running]

theorem hostEvent_timerTick_of_running (cfg : Config) {s : State} (running : s.status = .running) :
    hostEvent cfg .timerTick s = .next ((s.setDT (tickDown s.dt)).setST (tickDown s.st)) :=
  congrArg Host.Outcome.next (State.whileRunning_of_running running _)

theorem hostEvent_keyUp_of_running (cfg : Config) {s : State} (running : s.status = .running) (k : Key) :
    hostEvent cfg (.keyUp k) s = .next (s.setKey (keyClear s.key k)) :=
  congrArg Host.Outcome.next (State.whileRunning_of_running running _)

/-- The subtraction on naturals stops at 0 by itself; on bytes the test for 0 keeps it from wrapping to 255. -/
theorem tickDown_toNat (b : Byte) : (tickDown b).toNat = b.toNat - 1 := by
  rw [tickDown]
  split
  case isTrue zero => rw [zero]; rfl
  case isFalse nonzero => bv_omega

theorem keyClear_getLsbD_iff (keys : BitVec 16) (k j : Key) :
    (keyClear keys k).getLsbD j.val = true ↔ j ≠ k ∧ keys.getLsbD j.val = true := by
  have clears : (~~~BitVec.twoPow 16 k.val).getLsbD j.val = true ↔ j ≠ k := by
    simp [Fin.val_inj]
  rw [keyClear, BitVec.getLsbD_and, Bool.and_eq_true, clears, and_comm]

theorem frame_setKey {regs : List Reg} {parts : List Part} {s t : State} (h : frame regs parts s t)
    (hkeys : .keys ∈ parts) (keys : BitVec 16) : frame regs parts s (t.setKey keys) := by
  refine ⟨h.1, fun p hp => ?_⟩
  cases p with
  | keys => exact absurd hkeys hp
  | _ => exact h.2 _ hp

/-- Settles O41: the event is one write to each timer, and has no output. -/
theorem timerTickDecrementsToFloorZero : Obligations.TimerTickDecrementsToFloorZero := fun cfg s running =>
  ⟨rfl, _, hostEvent_timerTick_of_running cfg running, tickDown_toNat s.dt, tickDown_toNat s.st,
    frame_setST (frame_setDT (frame_refl _ _ s) (by decide) _) (by decide) _⟩

/-- Settles O43: the event is one write to the key state, so a pending wait stays (R233). -/
theorem keyUpClearsOnlyTheKey : Obligations.KeyUpClearsOnlyTheKey := fun cfg s k running =>
  ⟨_, hostEvent_keyUp_of_running cfg running k, keyClear_getLsbD_iff s.key k,
    frame_setKey (frame_refl _ _ s) (List.mem_singleton_self _) _⟩

end Sys2Proof.Machine
end

section
/-! The decoder, family by family (R74, R105): the top nibble picks the table the rest of the word is looked up in. -/

namespace Sys2Proof

section
variable {cfg : Config} {w : Word}

theorem decodeWord_of_zero (h : (fieldsOf w).op = 0x0#4) : decodeWord cfg w = lookupZero cfg w (fieldsOf w).n := by
  simp [decodeWord, dispatchKey, h, lookup]

theorem decodeWord_of_eight (h : (fieldsOf w).op = 0x8#4) :
    decodeWord cfg w = lookupEight (fieldsOf w) (fieldsOf w).n := by
  simp [decodeWord, dispatchKey, h, lookup]

theorem decodeWord_of_E (h : (fieldsOf w).op = 0xE#4) : decodeWord cfg w = lookupE (fieldsOf w) (fieldsOf w).kk := by
  simp [decodeWord, dispatchKey, h, lookup]

theorem decodeWord_of_F (h : (fieldsOf w).op = 0xF#4) : decodeWord cfg w = lookupF (fieldsOf w) (fieldsOf w).kk := by
  simp [decodeWord, dispatchKey, h, lookup]

/-- The four families with a second level of dispatch (R74). -/
def hasSecondLevel (op : Nibble) : Bool :=
  match op with
  | 0x0#4 | 0x8#4 | 0xE#4 | 0xF#4 => true
  | _ => false

theorem hasSecondLevel_iff (op : Nibble) :
    hasSecondLevel op = true ↔ op = 0x0#4 ∨ op = 0x8#4 ∨ op = 0xE#4 ∨ op = 0xF#4 := by
  revert op
  decide

theorem decodeWord_of_top (h : hasSecondLevel (fieldsOf w).op = false) :
    decodeWord cfg w = lookupTop cfg (fieldsOf w) (fieldsOf w).op := by
  rw [← Bool.not_eq_true, hasSecondLevel_iff] at h
  simp only [not_or] at h
  obtain ⟨h0, h8, hE, hF⟩ := h
  simp [decodeWord, dispatchKey, h0, h8, hE, hF, lookup]

end

/-- R75, R76: the canonical word of an instruction selects its family by its top nibble, its handler by the low bits,
and carries its operands in the slices the handler takes them from. -/
theorem decodeWord_encode (cfg : Config) (i : Instr) : decodeWord cfg (encode i) = some i := by
  cases i with
  | cls | ret => cases cfg with | mk aliasDecode => cases aliasDecode <;> decide
  | jp | call | ldI | jpV0 => simp [encode, decodeWord_of_top, hasSecondLevel, fieldsOf_formatNNN, lookupTop]
  | seImm | sneImm | ldImm | addImm | rnd =>
    simp [encode, decodeWord_of_top, hasSecondLevel, fieldsOf_formatXKK, lookupTop]
  | seReg | sneReg | drw =>
    simp [encode, decodeWord_of_top, hasSecondLevel, fieldsOf_formatXYN, lookupTop, canonicalUnlessAlias]
  | ldReg | orReg | andReg | xorReg | addReg | subReg | shrReg | subnReg | shlReg =>
    simp [encode, decodeWord_of_eight, fieldsOf_formatXYN, lookupEight]
  | skp | sknp => simp [encode, decodeWord_of_E, fieldsOf_formatXKK, lookupE]
  | ldVxDT | ldVxK | ldDTVx | ldSTVx | addIVx | ldFVx | ldBVx | ldMemVx | ldVxMem =>
    simp [encode, decodeWord_of_F, fieldsOf_formatXKK, lookupF]

theorem decodeBytes_of_decodeWord {cfg : Config} {w : Word} {i : Instr} (h : decodeWord cfg w = some i)
    (rest : List Byte) : decodeBytes cfg (bytesOfWord w ++ rest) = .ok (i, rest) := by
  simp [bytesOfWord, decodeBytes, wordOfBytes_bytesOfWord, h]

/-- Settles O49: by instruction; the bytes decode as the word they store does. -/
theorem decodeOfEncodeIsIdentity : Obligations.DecodeOfEncodeIsIdentity := fun cfg i =>
  ⟨decodeWord_encode cfg i, decodeBytes_of_decodeWord (decodeWord_encode cfg i)⟩

end Sys2Proof
end

section
/-! The decoder read backwards (R75, R76): a word that decodes is the canonical word of its instruction, or another
spelling of it that ALIAS_DECODE = true takes. -/

namespace Sys2Proof

open Sys2Proof.Laws

/-- Settles O53: each field is a slice, and a slice is a quotient and a remainder. -/
theorem fieldsAreTheNamedSlices : Obligations.FieldsAreTheNamedSlices := fun w =>
  have hop : w.toNat / 4096 % 16 = w.toNat / 4096 := by have := w.isLt; omega
  ⟨(slice_toNat w 12 4).trans hop, slice_toNat w 8 4, slice_toNat w 4 4,
    (slice_toNat w 0 4).trans (by omega), (slice_toNat w 0 8).trans (by omega), (slice_toNat w 0 12).trans (by omega)⟩

/-! A word is put together again from the fields of any one format (R72). -/

section
variable {op : Nibble} {w : Word} (h : (fieldsOf w).op = op)
include h

theorem formatNNN_of_op : formatNNN op (fieldsOf w).nnn = w := by
  obtain ⟨hop, -, -, -, -, hnnn⟩ := fieldsAreTheNamedSlices w
  apply BitVec.eq_of_toNat_eq
  rw [formatNNN_toNat, ← h]
  omega

theorem formatXKK_of_op : formatXKK op (fieldsOf w).x (fieldsOf w).kk = w := by
  obtain ⟨hop, hx, -, -, hkk, -⟩ := fieldsAreTheNamedSlices w
  apply BitVec.eq_of_toNat_eq
  rw [formatXKK_toNat, ← h]
  omega

theorem formatXYN_of_op : formatXYN op (fieldsOf w).x (fieldsOf w).y (fieldsOf w).n = w := by
  obtain ⟨hop, hx, hy, hn, -, -⟩ := fieldsAreTheNamedSlices w
  apply BitVec.eq_of_toNat_eq
  rw [formatXYN_toNat, ← h]
  omega

end

/-! Each lookup answers the instruction whose canonical word has the fields it was given. -/

theorem encode_of_lookupEight {f : Fields} {low : Nibble} {i : Instr} (h : lookupEight f low = some i) :
    encode i = formatXYN 0x8#4 f.x f.y low := by
  unfold lookupEight at h
  split at h <;> cases h <;> rfl

theorem encode_of_lookupE {f : Fields} {low : Byte} {i : Instr} (h : lookupE f low = some i) :
    encode i = formatXKK 0xE#4 f.x low := by
  unfold lookupE at h
  split at h <;> cases h <;> rfl

theorem encode_of_lookupF {f : Fields} {low : Byte} {i : Instr} (h : lookupF f low = some i) :
    encode i = formatXKK 0xF#4 f.x low := by
  unfold lookupF at h
  split at h <;> cases h <;> rfl

/-- The four instructions whose dispatch ignores bits of their canonical word (R76). -/
def isAliased (i : Instr) : Prop := i = .cls ∨ i = .ret ∨ ∃ x y, i = .seReg x y ∨ i = .sneReg x y

/-- `w` is another spelling of `i`, taken for it under ALIAS_DECODE = true (R76). -/
def IsAliasOf (cfg : Config) (w : Word) (i : Instr) : Prop :=
  cfg.aliasDecode = true ∧ isAliased i ∧ i.row.selects cfg w = true

/-- An aliased instruction is answered for its canonical spelling, and for every word of its row when aliases count. -/
theorem encode_or_alias_of_canonicalUnlessAlias {cfg : Config} {w : Word} {c : Bool} {i j : Instr}
    (haliased : isAliased i) (hcanonical : c = true → encode i = w) (hselects : w &&& i.row.mask = i.row.matchWord)
    (h : canonicalUnlessAlias cfg c i = some j) : encode j = w ∨ IsAliasOf cfg w j := by
  unfold canonicalUnlessAlias at h
  split at h
  · next hc =>
    obtain rfl := Option.some.inj h
    obtain hcfg | hc := (Bool.or_eq_true ..).mp hc
    · exact .inr ⟨hcfg, haliased, by simp [Row.selects, hcfg, hselects]⟩
    · exact .inl (hcanonical hc)
  · cases h

theorem encode_or_alias_of_lookupZero {cfg : Config} {w : Word} {i : Instr} (hop : (fieldsOf w).op = 0x0#4)
    (h : lookupZero cfg w (fieldsOf w).n = some i) : encode i = w ∨ IsAliasOf cfg w i := by
  have hmask : w &&& 0xF00F#16 = formatXYN 0x0#4 0 0 (fieldsOf w).n := hop ▸ and_F00F w
  unfold lookupZero at h
  split at h
  · next hn =>
    exact encode_or_alias_of_canonicalUnlessAlias (.inl rfl) (fun hw => (beq_iff_eq.mp hw).symm)
      (hmask.trans (by rw [hn]; rfl)) h
  · split at h
    · next hn =>
      exact encode_or_alias_of_canonicalUnlessAlias (.inr (.inl rfl)) (fun hw => (beq_iff_eq.mp hw).symm)
        (hmask.trans (by rw [hn]; rfl)) h
    · cases h

theorem encode_or_alias_of_lookupTop {cfg : Config} {w : Word} {i : Instr}
    (h : lookupTop cfg (fieldsOf w) (fieldsOf w).op = some i) : encode i = w ∨ IsAliasOf cfg w i := by
  unfold lookupTop at h
  split at h
  case h_1 hop | h_2 hop | h_9 hop | h_10 hop =>
    cases h
    exact .inl (formatNNN_of_op hop)
  case h_3 hop | h_4 hop | h_6 hop | h_7 hop | h_11 hop =>
    cases h
    exact .inl (formatXKK_of_op hop)
  case h_12 hop =>
    cases h
    exact .inl (formatXYN_of_op hop)
  case h_5 hop | h_8 hop =>
    have hmask : w &&& 0xF000#16 = formatNNN (fieldsOf w).op 0#12 := and_F000 w
    refine encode_or_alias_of_canonicalUnlessAlias (by simp [isAliased]) (fun hn => ?_) ?_ h
    · have hword := formatXYN_of_op hop
      rw [beq_iff_eq.mp hn] at hword
      exact hword
    · exact hmask.trans (by rw [hop]; rfl)
  case h_13 => cases h

/-- A word that decodes is the canonical word of its instruction, or another spelling of it (R76). -/
theorem encode_or_alias_of_decodeWord {cfg : Config} {w : Word} {i : Instr} (h : decodeWord cfg w = some i) :
    encode i = w ∨ IsAliasOf cfg w i := by
  cases hsecond : hasSecondLevel (fieldsOf w).op with
  | true =>
    obtain hop | hop | hop | hop := (hasSecondLevel_iff _).mp hsecond
    · exact encode_or_alias_of_lookupZero hop (decodeWord_of_zero hop ▸ h)
    · rw [decodeWord_of_eight hop] at h
      exact .inl ((encode_of_lookupEight h).trans (formatXYN_of_op hop))
    · rw [decodeWord_of_E hop] at h
      exact .inl ((encode_of_lookupE h).trans (formatXKK_of_op hop))
    · rw [decodeWord_of_F hop] at h
      exact .inl ((encode_of_lookupF h).trans (formatXKK_of_op hop))
  | false => exact encode_or_alias_of_lookupTop (decodeWord_of_top hsecond ▸ h)

/-- Settles O52: with ALIAS_DECODE = false a word that decodes is canonical, and canonical words decode alike under both
readings. -/
theorem readingsOfAliasDecodeAgreeOnCanonicalWords : Obligations.ReadingsOfAliasDecodeAgreeOnCanonicalWords := by
  intro w i
  constructor
  · intro h
    obtain hw | ⟨hcfg, -, -⟩ := encode_or_alias_of_decodeWord h
    · rw [← hw, decodeWord_encode]
    · cases hcfg
  · intro h
    by_cases hw : encode i = w
    · exact .inl (by rw [← hw, decodeWord_encode])
    · obtain hw' | ⟨-, haliased, -⟩ := encode_or_alias_of_decodeWord h
      · exact absurd hw' hw
      · exact .inr ⟨fun e => hw e.symm, haliased⟩

end Sys2Proof
end

section
/-! The opcode map against the decoder (R75, R105), and the words that neither takes (R77). -/

namespace Sys2Proof

open Sys2Proof.Laws

/-- The canonical word of every instruction selects the instruction's row, under both readings (R75, R76). -/
theorem encodingSelectsItsRow : ∀ i : Instr, EncodingSelectsItsRow.Statement i
  | .cls => EncodingSelectsItsRow.cls
  | .ret => EncodingSelectsItsRow.ret
  | .jp nnn => EncodingSelectsItsRow.jp nnn
  | .call nnn => EncodingSelectsItsRow.call nnn
  | .seImm x kk => EncodingSelectsItsRow.seImm x kk
  | .sneImm x kk => EncodingSelectsItsRow.sneImm x kk
  | .seReg x y => EncodingSelectsItsRow.seReg x y
  | .ldImm x kk => EncodingSelectsItsRow.ldImm x kk
  | .addImm x kk => EncodingSelectsItsRow.addImm x kk
  | .ldReg x y => EncodingSelectsItsRow.ldReg x y
  | .orReg x y => EncodingSelectsItsRow.orReg x y
  | .andReg x y => EncodingSelectsItsRow.andReg x y
  | .xorReg x y => EncodingSelectsItsRow.xorReg x y
  | .addReg x y => EncodingSelectsItsRow.addReg x y
  | .subReg x y => EncodingSelectsItsRow.subReg x y
  | .shrReg x y => EncodingSelectsItsRow.shrReg x y
  | .subnReg x y => EncodingSelectsItsRow.subnReg x y
  | .shlReg x y => EncodingSelectsItsRow.shlReg x y
  | .sneReg x y => EncodingSelectsItsRow.sneReg x y
  | .ldI nnn => EncodingSelectsItsRow.ldI nnn
  | .jpV0 nnn => EncodingSelectsItsRow.jpV0 nnn
  | .rnd x kk => EncodingSelectsItsRow.rnd x kk
  | .drw x y n => EncodingSelectsItsRow.drw x y n
  | .skp x => EncodingSelectsItsRow.skp x
  | .sknp x => EncodingSelectsItsRow.sknp x
  | .ldVxDT x => EncodingSelectsItsRow.ldVxDT x
  | .ldVxK x => EncodingSelectsItsRow.ldVxK x
  | .ldDTVx x => EncodingSelectsItsRow.ldDTVx x
  | .ldSTVx x => EncodingSelectsItsRow.ldSTVx x
  | .addIVx x => EncodingSelectsItsRow.addIVx x
  | .ldFVx x => EncodingSelectsItsRow.ldFVx x
  | .ldBVx x => EncodingSelectsItsRow.ldBVx x
  | .ldMemVx x => EncodingSelectsItsRow.ldMemVx x
  | .ldVxMem x => EncodingSelectsItsRow.ldVxMem x

/-- A word that decodes selects the row of its instruction. -/
theorem row_selects_of_decodeWord {cfg : Config} {w : Word} {i : Instr} (h : decodeWord cfg w = some i) :
    i.row.selects cfg w = true := by
  obtain hw | ⟨-, -, hselects⟩ := encode_or_alias_of_decodeWord h
  · exact hw ▸ (encodingSelectsItsRow i).2 cfg
  · exact hselects

/-! A mask of the opcode map fixes exactly the fields the dispatch looks at (R74, R75). -/

section
variable {cfg : Config} {w m : Word}

theorem decodeWord_of_and_F000 (h : w &&& 0xF000#16 = m) (hm : hasSecondLevel (fieldsOf m).op = false) :
    decodeWord cfg w = lookupTop cfg (fieldsOf w) (fieldsOf m).op := by
  have hop : (fieldsOf w).op = (fieldsOf m).op := by
    rw [← h, and_F000]
    exact (fieldsOf_formatNNN _ _).1.symm
  rw [decodeWord_of_top (hop ▸ hm), hop]

theorem fieldsOf_of_and_F00F (h : w &&& 0xF00F#16 = m) :
    (fieldsOf w).op = (fieldsOf m).op ∧ (fieldsOf w).n = (fieldsOf m).n := by
  obtain ⟨hop, -, -, hn⟩ := fieldsOf_formatXYN (slice w 12 4) 0 0 (slice w 0 4)
  rw [← h, and_F00F]
  exact ⟨hop.symm, hn.symm⟩

theorem decodeWord_of_and_F00F_zero (h : w &&& 0xF00F#16 = m) (hm : (fieldsOf m).op = 0x0#4) :
    decodeWord cfg w = lookupZero cfg w (fieldsOf m).n := by
  obtain ⟨hop, hn⟩ := fieldsOf_of_and_F00F h
  rw [decodeWord_of_zero (hop.trans hm), hn]

theorem decodeWord_of_and_F00F_eight (h : w &&& 0xF00F#16 = m) (hm : (fieldsOf m).op = 0x8#4) :
    decodeWord cfg w = lookupEight (fieldsOf w) (fieldsOf m).n := by
  obtain ⟨hop, hn⟩ := fieldsOf_of_and_F00F h
  rw [decodeWord_of_eight (hop.trans hm), hn]

theorem fieldsOf_of_and_F0FF (h : w &&& 0xF0FF#16 = m) :
    (fieldsOf w).op = (fieldsOf m).op ∧ (fieldsOf w).kk = (fieldsOf m).kk := by
  obtain ⟨hop, -, hkk⟩ := fieldsOf_formatXKK (slice w 12 4) 0 (slice w 0 8)
  rw [← h, and_F0FF]
  exact ⟨hop.symm, hkk.symm⟩

theorem decodeWord_of_and_F0FF_E (h : w &&& 0xF0FF#16 = m) (hm : (fieldsOf m).op = 0xE#4) :
    decodeWord cfg w = lookupE (fieldsOf w) (fieldsOf m).kk := by
  obtain ⟨hop, hkk⟩ := fieldsOf_of_and_F0FF h
  rw [decodeWord_of_E (hop.trans hm), hkk]

theorem decodeWord_of_and_F0FF_F (h : w &&& 0xF0FF#16 = m) (hm : (fieldsOf m).op = 0xF#4) :
    decodeWord cfg w = lookupF (fieldsOf w) (fieldsOf m).kk := by
  obtain ⟨hop, hkk⟩ := fieldsOf_of_and_F0FF h
  rw [decodeWord_of_F (hop.trans hm), hkk]

end

/-- One instruction of each row, in the order of the opcode map. -/
def oneOfEachRow : List Instr :=
  [.cls, .ret, .jp 0, .call 0, .seImm 0 0, .sneImm 0 0, .seReg 0 0, .ldImm 0 0, .addImm 0 0, .ldReg 0 0, .orReg 0 0,
    .andReg 0 0, .xorReg 0 0, .addReg 0 0, .subReg 0 0, .shrReg 0 0, .subnReg 0 0, .shlReg 0 0, .sneReg 0 0, .ldI 0,
    .jpV0 0, .rnd 0 0, .drw 0 0 0, .skp 0, .sknp 0, .ldVxDT 0, .ldVxK 0, .ldDTVx 0, .ldSTVx 0, .addIVx 0, .ldFVx 0,
    .ldBVx 0, .ldMemVx 0, .ldVxMem 0]

theorem opcodeTable_eq_map : opcodeTable = oneOfEachRow.map Instr.row := rfl

/-- A row whose two masks agree selects by that mask under both readings. -/
theorem Row.and_mask_of_selects {cfg : Config} {r : Row} {w : Word} (hmask : r.canonicalMask = r.mask)
    (hmatch : r.canonicalMatch = r.matchWord) (h : r.selects cfg w = true) : w &&& r.mask = r.matchWord := by
  rw [Row.selects, hmask, hmatch, ite_self] at h
  exact beq_iff_eq.mp h

theorem formatXYN_of_and_F00F {w m : Word} (h : w &&& 0xF00F#16 = m) :
    formatXYN (fieldsOf m).op (fieldsOf w).x (fieldsOf w).y (fieldsOf m).n = w := by
  obtain ⟨hop, hn⟩ := fieldsOf_of_and_F00F h
  rw [← hn, formatXYN_of_op hop]

theorem exists_decodeWord_of_encode {cfg : Config} {w : Word} {r : Row} (j : Instr) (hw : encode j = w)
    (hr : j.row = r) : ∃ i, decodeWord cfg w = some i ∧ i.row = r :=
  ⟨j, hw ▸ decodeWord_encode cfg j, hr⟩

/-- The aliased instructions, whose rows have one mask for each reading (R76). -/
theorem decodeWord_of_aliased_row_selects {cfg : Config} {w : Word} {i : Instr} (hi : isAliased i)
    (h : i.row.selects cfg w = true) : ∃ j, decodeWord cfg w = some j ∧ j.row = i.row := by
  obtain ⟨aliasDecode⟩ := cfg
  cases aliasDecode with
  | true =>
    have hmask : w &&& i.row.mask = i.row.matchWord := beq_iff_eq.mp h
    obtain rfl | rfl | ⟨x, y, rfl | rfl⟩ := hi
    · exact ⟨_, decodeWord_of_and_F00F_zero hmask (by decide), rfl⟩
    · exact ⟨_, decodeWord_of_and_F00F_zero hmask (by decide), rfl⟩
    all_goals
      simp only [Instr.row] at hmask
      have hdecode := decodeWord_of_and_F000 (cfg := ⟨true⟩) hmask (by decide)
      exact ⟨_, hdecode, rfl⟩
  | false =>
    have hmask : w &&& i.row.canonicalMask = i.row.canonicalMatch := beq_iff_eq.mp h
    obtain rfl | rfl | ⟨x, y, rfl | rfl⟩ := hi
    · exact exists_decodeWord_of_encode .cls (hmask.symm.trans (and_FFFF w)) rfl
    · exact exists_decodeWord_of_encode .ret (hmask.symm.trans (and_FFFF w)) rfl
    · exact exists_decodeWord_of_encode (.seReg _ _) (formatXYN_of_and_F00F (m := 0x5000#16) hmask) rfl
    · exact exists_decodeWord_of_encode (.sneReg _ _) (formatXYN_of_and_F00F (m := 0x9000#16) hmask) rfl

/-- A word that selects the row of some instruction decodes to an instruction of that row. -/
theorem decodeWord_of_row_selects {cfg : Config} {w : Word} (i : Instr) (h : i.row.selects cfg w = true) :
    ∃ j, decodeWord cfg w = some j ∧ j.row = i.row := by
  cases i with
  | jp | call | seImm | sneImm | ldImm | addImm | ldI | jpV0 | rnd | drw =>
    simp only [Instr.row] at h
    have hdecode := decodeWord_of_and_F000 (cfg := cfg) (Row.and_mask_of_selects rfl rfl h) (by decide)
    exact ⟨_, hdecode, rfl⟩
  | ldReg | orReg | andReg | xorReg | addReg | subReg | shrReg | subnReg | shlReg =>
    simp only [Instr.row] at h
    have hdecode := decodeWord_of_and_F00F_eight (cfg := cfg) (Row.and_mask_of_selects rfl rfl h) (by decide)
    exact ⟨_, hdecode, rfl⟩
  | skp | sknp =>
    simp only [Instr.row] at h
    have hdecode := decodeWord_of_and_F0FF_E (cfg := cfg) (Row.and_mask_of_selects rfl rfl h) (by decide)
    exact ⟨_, hdecode, rfl⟩
  | ldVxDT | ldVxK | ldDTVx | ldSTVx | addIVx | ldFVx | ldBVx | ldMemVx | ldVxMem =>
    simp only [Instr.row] at h
    have hdecode := decodeWord_of_and_F0FF_F (cfg := cfg) (Row.and_mask_of_selects rfl rfl h) (by decide)
    exact ⟨_, hdecode, rfl⟩
  | cls | ret | seReg | sneReg => exact decodeWord_of_aliased_row_selects (by simp [isAliased]) h

/-- Settles O50: a word that decodes selects the row of its instruction, and one that selects a row decodes to an
instruction of it, which must be the one it decodes to. -/
theorem dispatchAgreesWithOpcodeMap : Obligations.DispatchAgreesWithOpcodeMap := by
  intro cfg w r hr
  obtain ⟨i, -, rfl⟩ := List.mem_map.mp (opcodeTable_eq_map ▸ hr)
  constructor
  · exact decodeWord_of_row_selects i
  · rintro ⟨j, hj, hrow⟩
    exact hrow ▸ row_selects_of_decodeWord hj

end Sys2Proof
end

section
/-! The unknown words (R77), by arithmetic on the word. -/

namespace Sys2Proof

/-! When each table has no entry. -/

theorem canonicalUnlessAlias_eq_none {cfg : Config} {c : Bool} {i : Instr} :
    canonicalUnlessAlias cfg c i = none ↔ cfg.aliasDecode = false ∧ c = false := by
  rw [canonicalUnlessAlias]
  cases cfg.aliasDecode <;> cases c <;> simp

theorem lookupZero_eq_none {cfg : Config} {w : Word} {low : Nibble} :
    lookupZero cfg w low = none ↔ (low.toNat ≠ 0 ∧ low.toNat ≠ 14) ∨
      cfg.aliasDecode = false ∧ (low.toNat = 0 ∧ w.toNat ≠ 0xE0 ∨ low.toNat = 14 ∧ w.toNat ≠ 0xEE) := by
  unfold lookupZero
  split
  · next h => simp [canonicalUnlessAlias_eq_none, h, ← BitVec.toNat_inj]
  · split
    · next h => simp [canonicalUnlessAlias_eq_none, h, ← BitVec.toNat_inj]
    · simp_all [← BitVec.toNat_inj]

theorem lookupEight_eq_none {f : Fields} {low : Nibble} :
    lookupEight f low = none ↔ 8 ≤ low.toNat ∧ low.toNat ≠ 14 := by
  unfold lookupEight
  split <;> simp_all [← BitVec.toNat_inj]
  omega

theorem lookupE_eq_none {f : Fields} {low : Byte} :
    lookupE f low = none ↔ low.toNat ≠ 0x9E ∧ low.toNat ≠ 0xA1 := by
  unfold lookupE
  split <;> simp_all [← BitVec.toNat_inj]

theorem lookupF_eq_none {f : Fields} {low : Byte} :
    lookupF f low = none ↔ low.toNat ∉ [0x07, 0x0A, 0x15, 0x18, 0x1E, 0x29, 0x33, 0x55, 0x65] := by
  unfold lookupF
  split <;> simp_all [← BitVec.toNat_inj]

theorem hasSecondLevel_eq_false_iff (op : Nibble) : hasSecondLevel op = false ↔
    op ∈ [0x1#4, 0x2#4, 0x3#4, 0x4#4, 0x5#4, 0x6#4, 0x7#4, 0x9#4, 0xA#4, 0xB#4, 0xC#4, 0xD#4] := by
  revert op
  decide

theorem lookupTop_eq_none {cfg : Config} {f : Fields} {op : Nibble} (h : hasSecondLevel op = false) :
    lookupTop cfg f op = none ↔
      cfg.aliasDecode = false ∧ (op.toNat = 5 ∨ op.toNat = 9) ∧ f.n.toNat ≠ 0 := by
  unfold lookupTop
  split
  case h_5 | h_8 => simp [canonicalUnlessAlias_eq_none, ← BitVec.toNat_inj]
  case h_13 =>
    have hop := (hasSecondLevel_eq_false_iff op).mp h
    simp_all
  all_goals simp

/-- The words unknown under either reading, by the families of R74. -/
theorem decodeWord_eq_none_iff (cfg : Config) (w : Word) : decodeWord cfg w = none ↔
    (w.toNat / 4096 = 0 ∧ w.toNat % 16 ≠ 0 ∧ w.toNat % 16 ≠ 14) ∨
    (w.toNat / 4096 = 8 ∧ 8 ≤ w.toNat % 16 ∧ w.toNat % 16 ≠ 14) ∨
    (w.toNat / 4096 = 14 ∧ w.toNat % 256 ≠ 0x9E ∧ w.toNat % 256 ≠ 0xA1) ∨
    (w.toNat / 4096 = 15 ∧ w.toNat % 256 ∉ [0x07, 0x0A, 0x15, 0x18, 0x1E, 0x29, 0x33, 0x55, 0x65]) ∨
    cfg.aliasDecode = false ∧ ((w.toNat / 4096 = 0 ∧ w.toNat ≠ 0x00E0 ∧ w.toNat ≠ 0x00EE) ∨
      ((w.toNat / 4096 = 5 ∨ w.toNat / 4096 = 9) ∧ w.toNat % 16 ≠ 0)) := by
  obtain ⟨hop, -, -, hn, hkk, -⟩ := fieldsAreTheNamedSlices w
  cases hsecond : hasSecondLevel (fieldsOf w).op with
  | true =>
    obtain h | h | h | h := (hasSecondLevel_iff _).mp hsecond
    · rw [decodeWord_of_zero h, lookupZero_eq_none, hn, ← hop, h]
      cases cfg.aliasDecode <;> simp
      omega
    · rw [decodeWord_of_eight h, lookupEight_eq_none, hn, ← hop, h]
      simp
    · rw [decodeWord_of_E h, lookupE_eq_none, hkk, ← hop, h]
      simp
    · rw [decodeWord_of_F h, lookupF_eq_none, hkk, ← hop, h]
      simp
  | false =>
    have hfirst := (hasSecondLevel_eq_false_iff _).mp hsecond
    rw [decodeWord_of_top hsecond, lookupTop_eq_none hsecond, hn, ← hop]
    simp only [List.mem_cons, List.not_mem_nil, or_false] at hfirst
    obtain h | h | h | h | h | h | h | h | h | h | h | h := hfirst <;> simp [h]

/-- Settles O51: under ALIAS_DECODE = true the sets of the reading `false` fall away. -/
theorem unknownWordsAreTheNamedSets : Obligations.UnknownWordsAreTheNamedSets := by
  refine ⟨fun w => ?_, fun w => ?_⟩
  · rw [decodeWord_eq_none_iff]
    simp
  · rw [decodeWord_eq_none_iff, decodeWord_eq_none_iff]
    simp [or_assoc]

/-- Settles O54: the decoder evaluated on twelve words. -/
theorem testVectorWordsDecode : Obligations.TestVectorWordsDecode := by
  unfold Obligations.TestVectorWordsDecode
  decide

end Sys2Proof
end

section
/-! Bits 15 to 12 of the addresses are unobservable (R24, R26, D9). Two runs from related states are compared write by
write: every write that takes its value from related states keeps the states related, and no read but that of an
address shows a difference. -/

namespace Sys2Proof.Machine

/-- Two addresses that a memory access cannot tell apart (R50). -/
def SameAddress (w w' : Word) : Prop := w'.toNat % 4096 = w.toNat % 4096

theorem SameAddress.refl (w : Word) : SameAddress w w := rfl

theorem SameAddress.add {w w' : Word} (h : SameAddress w w') (k : Word) : SameAddress (w + k) (w' + k) := by
  unfold SameAddress at h ⊢
  simp only [BitVec.toNat_add]
  omega

theorem SameAddress.sub {w w' : Word} (h : SameAddress w w') (k : Word) : SameAddress (w - k) (w' - k) := by
  rw [BitVec.sub_eq_add_neg, BitVec.sub_eq_add_neg]
  exact h.add _

theorem SameAddress.indexAddress_mod {w w' : Word} (h : SameAddress w w') (k : Nat) :
    indexAddress w' k % 4096 = indexAddress w k % 4096 := by
  unfold SameAddress at h
  unfold indexAddress
  omega

end Sys2Proof.Machine

namespace Sys2Proof.Claims.SameUpToHighAddressBits

open Sys2Proof.Machine

theorem refl (s : State) : SameUpToHighAddressBits s s where
  registers _ := rfl
  index := rfl
  pc := rfl
  stack _ := rfl
  rest := by simp

section
variable {s s' : State} (h : SameUpToHighAddressBits s s')
include h

/-! What related states give alike. -/

theorem memRead_eq {a a' : Nat} (ha : a' % 4096 = a % 4096) : s'.memRead a' = s.memRead a := by
  obtain ⟨-, -, -, hmem, -⟩ := h.rest
  rw [State.memRead, State.memRead, hmem, ha]

theorem fetchWord_eq : s'.fetchWord = s.fetchWord := by
  have hpc := h.pc
  rw [State.fetchWord, State.fetchWord, h.memRead_eq hpc, h.memRead_eq (a := s.pc.toNat + 1) (by omega)]

theorem drawSpriteRows_eq (ox oy left row : Nat) (d : Drawing) :
    drawSpriteRows s' ox oy left row d = drawSpriteRows s ox oy left row d := by
  induction left generalizing row d with
  | zero => rfl
  | succ left ih => simp only [drawSpriteRows, h.memRead_eq (SameAddress.indexAddress_mod h.index row), ih]

theorem drawSprite_eq (a b : Byte) (n : Nat) : drawSprite s' a b n = drawSprite s a b n := by
  obtain ⟨-, -, -, -, hfb, -⟩ := h.rest
  rw [drawSprite, drawSprite, h.drawSpriteRows_eq, hfb]

theorem indexSum_eq (a : Byte) : indexSum s'.i a = indexSum s.i a := by
  have hlow : s'.i.extractLsb' 0 12 = s.i.extractLsb' 0 12 := by
    apply BitVec.eq_of_toNat_eq
    simpa using h.index
  rw [indexSum, indexSum, hlow]

theorem sameAddress_top : SameAddress s.top s'.top := by
  obtain ⟨hsp, -⟩ := h.rest
  simp only [State.top, hsp]
  exact h.stack ⟨s.sp.val - 1, by omega⟩

theorem enterFault_eq (cause : Fault) : s'.enterFault cause = s.enterFault cause := by
  obtain ⟨-, -, -, -, -, -, -, -, hfree⟩ := h.rest
  simp only [State.enterFault, hfree]

/-! Related states after the same write. -/

theorem setV (x : Reg) (b : Byte) : SameUpToHighAddressBits (s.setV x b) (s'.setV x b) :=
  { h with registers := fun r => by rw [State.getV_setV, State.getV_setV, h.registers r] }

theorem setI {w w' : Word} (hw : SameAddress w w') : SameUpToHighAddressBits (s.setI w) (s'.setI w') :=
  { h with index := hw }

theorem setPc {w w' : Word} (hw : SameAddress w w') : SameUpToHighAddressBits (s.setPc w) (s'.setPc w') :=
  { h with pc := hw }

theorem advance : SameUpToHighAddressBits s.advance s'.advance := h.setPc (SameAddress.add h.pc 2)

theorem skipIf : ∀ c : Bool, SameUpToHighAddressBits (s.skipIf c) (s'.skipIf c)
  | true => h.setPc (SameAddress.add h.pc 2)
  | false => h

theorem setDT (b : Byte) : SameUpToHighAddressBits (s.setDT b) (s'.setDT b) :=
  { h with rest := by simp [h.rest] }

theorem setST (b : Byte) : SameUpToHighAddressBits (s.setST b) (s'.setST b) :=
  { h with rest := by simp [h.rest] }

theorem setFb (f : Framebuffer) : SameUpToHighAddressBits (s.setFb f) (s'.setFb f) :=
  { h with rest := by simp [h.rest] }

theorem setWait (r : Option Reg) : SameUpToHighAddressBits (s.setWait r) (s'.setWait r) :=
  { h with rest := by simp [h.rest] }

theorem countFree : SameUpToHighAddressBits s.countFree s'.countFree :=
  { h with rest := by simp [h.rest] }

theorem pop : SameUpToHighAddressBits s.pop s'.pop :=
  { h with rest := by simp [h.rest] }

theorem push {w w' : Word} (hw : SameAddress w w') : SameUpToHighAddressBits (s.push w) (s'.push w') :=
  { h with
    stack := fun j => by
      have hget : ∀ (u : State) (v : Word), (u.push v).stack[j] = if j.val = u.sp.val then v else u.stack[j] :=
        fun u v => u.push_stack_get v j.val j.isLt
      obtain ⟨hsp, -⟩ := h.rest
      rw [hget, hget, hsp]
      split
      · exact hw
      · exact h.stack j
    rest := by simp [h.rest] }

theorem memWrite {a a' : Nat} (ha : a' % 4096 = a % 4096) (b : Byte) :
    SameUpToHighAddressBits (s.memWrite a b) (s'.memWrite a' b) :=
  { h with rest := by simp [h.rest, ha] }

theorem dumpRegs (n : Nat) : SameUpToHighAddressBits (s.dumpRegs n) (s'.dumpRegs n) := by
  induction n with
  | zero => exact h
  | succ n ih =>
    have hstore := ih.memWrite (SameAddress.indexAddress_mod ih.index 0) ((s.dumpRegs n).getV (regOfNat n))
    rw [State.dumpRegs, State.dumpRegs, State.dumpOne, State.dumpOne, ih.registers]
    exact hstore.setI (SameAddress.add ih.index 1)

theorem loadRegs (n : Nat) : SameUpToHighAddressBits (s.loadRegs n) (s'.loadRegs n) := by
  induction n with
  | zero => exact h
  | succ n ih =>
    rw [State.loadRegs, State.loadRegs, State.loadOne, State.loadOne,
      ih.memRead_eq (SameAddress.indexAddress_mod ih.index 0)]
    exact (ih.setV _ _).setI (SameAddress.add ih.index 1)

end

/-- Both outcomes are next states, and related. -/
def Outcomes (o o' : Host.Outcome State Fault Refusal) : Prop :=
  ∃ t t', o = .next t ∧ o' = .next t' ∧ SameUpToHighAddressBits t t'

theorem outcomes {t t' : State} (h : SameUpToHighAddressBits t t') : Outcomes (.next t) (.next t') :=
  ⟨t, t', rfl, rfl, h⟩

theorem outcomes_execRet {s s' : State} (h : SameUpToHighAddressBits s s') : Outcomes (execRet s) (execRet s') := by
  obtain ⟨hsp, -⟩ := h.rest
  unfold execRet
  rw [hsp]
  split
  · rw [h.enterFault_eq]
    exact (refl _).outcomes
  · exact (h.pop.setPc h.sameAddress_top).outcomes

theorem outcomes_execCall {s s' : State} (h : SameUpToHighAddressBits s s') (nnn : Addr) :
    Outcomes (execCall nnn s) (execCall nnn s') := by
  obtain ⟨hsp, -⟩ := h.rest
  unfold execCall
  rw [hsp]
  split
  · rw [h.enterFault_eq]
    exact (refl _).outcomes
  · exact ((h.push h.pc).setPc (.refl _)).outcomes

/-- Every handler reads the three address parts only as addresses, or copies them into one another. -/
theorem outcomes_exec {s s' : State} (h : SameUpToHighAddressBits s s') (i : Instr) :
    Outcomes (exec i s) (exec i s') := by
  have hv := h.registers
  have ⟨_, hdt, _, _, _, hkey, _, _, hfree⟩ := h.rest
  cases i with
  | ret => exact h.outcomes_execRet
  | call nnn => exact h.outcomes_execCall nnn
  | cls => exact (h.setFb _).outcomes
  | jp | jpV0 =>
    simp only [exec, execJp, execJpV0, hv]
    exact (h.setPc (.refl _)).outcomes
  | seImm | sneImm | seReg | sneReg | skp | sknp =>
    simp only [exec, execSeImm, execSneImm, execSeReg, execSneReg, execSkp, execSknp, State.keyIsDown, hv, hkey]
    exact (h.skipIf _).outcomes
  | ldImm | addImm | ldReg | orReg | andReg | xorReg | ldVxDT =>
    simp only [exec, execLdImm, execAddImm, execLdReg, execOrReg, execAndReg, execXorReg, execLdVxDT, hv, hdt]
    exact (h.setV _ _).outcomes
  | addReg | subReg | shrReg | subnReg | shlReg =>
    simp only [exec, execAddReg, execSubReg, execShrReg, execSubnReg, execShlReg, hv]
    exact ((h.setV _ _).setV _ _).outcomes
  | ldI | ldFVx =>
    simp only [exec, execLdI, execLdFVx, hv]
    exact (h.setI (.refl _)).outcomes
  | addIVx =>
    simp only [exec, execAddIVx, hv, h.indexSum_eq]
    exact ((h.setI (.refl _)).setV _ _).outcomes
  | drw =>
    simp only [exec, execDrw, hv, h.drawSprite_eq]
    exact ((h.setFb _).setV _ _).outcomes
  | rnd =>
    simp only [exec, execRnd, State.randomByte, hfree]
    exact (h.setV _ _).countFree.outcomes
  | ldVxK => exact ((h.setWait _).setPc (SameAddress.sub h.pc 2)).outcomes
  | ldDTVx =>
    simp only [exec, execLdDTVx, hv]
    exact (h.setDT _).outcomes
  | ldSTVx =>
    simp only [exec, execLdSTVx, hv]
    exact (h.setST _).outcomes
  | ldBVx =>
    have hstore := fun k => SameAddress.indexAddress_mod h.index k
    simp only [exec, execLdBVx, hv]
    exact (((h.memWrite (hstore 0) _).memWrite (hstore 1) _).memWrite (hstore 2) _).outcomes
  | ldMemVx => exact (h.dumpRegs _).outcomes
  | ldVxMem => exact (h.loadRegs _).outcomes

/-- Settles O40: the cycle fetches the same word from both states, and runs the same handler on both. -/
theorem highAddressBitsAreUnobservable : Obligations.HighAddressBitsAreUnobservable := by
  intro cfg s s' h
  have ⟨_, _, _, _, _, _, _, hstatus, _⟩ := h.rest
  change Outcomes (cycleWith cfg s) (cycleWith cfg s')
  unfold cycleWith
  rw [hstatus, h.fetchWord_eq]
  split
  · exact h.outcomes
  · split
    · exact h.advance.outcomes_exec _
    · exact h.advance.outcomes

end Sys2Proof.Claims.SameUpToHighAddressBits
end

section
/-! What a handler and a cycle can answer, said once (R100, R224): the two faults, and everything else. -/

namespace Sys2Proof.Machine

open Sys2Proof.Claims

/-- The fault a handler raises, if any (R221, R222). -/
def faultOf (i : Instr) (s : State) : Option Fault :=
  match i with
  | .call _ => if s.sp = 12 then some .stackOverflow else none
  | .ret => if s.sp = 0 then some .stackUnderflow else none
  | _ => none

theorem exec_ret_of_entry {s : State} (entry : s.sp ≠ 0) : exec .ret s = .next (s.pop.setPc s.top) := if_neg entry

theorem exec_ret_of_empty {s : State} (empty : s.sp = 0) : exec .ret s = .next (s.enterFault .stackUnderflow) :=
  if_pos empty

theorem faultOf_eq_stackOverflow {i : Instr} {s : State} :
    faultOf i s = some .stackOverflow ↔ s.sp = 12 ∧ ∃ nnn, i = .call nnn := by
  cases i <;> simp [faultOf]

theorem faultOf_eq_stackUnderflow {i : Instr} {s : State} :
    faultOf i s = some .stackUnderflow ↔ s.sp = 0 ∧ i = .ret := by
  cases i <;> simp [faultOf]

theorem exec_of_fault {i : Instr} {s : State} {c : Fault} (h : faultOf i s = some c) :
    exec i s = .next (s.enterFault c) := by
  cases c with
  | stackOverflow =>
    obtain ⟨full, nnn, rfl⟩ := faultOf_eq_stackOverflow.mp h
    exact exec_call_of_full nnn full
  | stackUnderflow =>
    obtain ⟨empty, rfl⟩ := faultOf_eq_stackUnderflow.mp h
    exact exec_ret_of_empty empty

/-- A handler that raises no fault keeps to its rule (R111). -/
theorem exec_of_no_fault {i : Instr} {s : State} (h : faultOf i s = none) :
    ∃ t, exec i s = .next t ∧ ChangesOnlyNamed i s t := by
  by_cases hi : isCallOrRet i
  · have start := ChangesOnlyNamed.start i s
    have redirects : redirectsPc i := .inl hi
    obtain rfl | ⟨nnn, rfl⟩ := id hi
    · have entry : s.sp ≠ 0 := fun empty => by simp [faultOf, empty] at h
      exact ⟨_, exec_ret_of_entry entry, (start.pop hi).setPc redirects _⟩
    · have room : s.sp ≠ 12 := fun full => by simp [faultOf, full] at h
      exact ⟨_, exec_call_of_room nnn room, (start.push hi _).setPc redirects _⟩
  · obtain ⟨t, hexec, hnamed | ⟨hcall, -⟩⟩ := exec_keepsToRule i s
    · exact ⟨t, hexec, hnamed⟩
    · exact absurd hcall hi

section
variable {cfg : Config} {s : State}

theorem cycleWith_of_faulted {c : Fault} (faulted : s.status = .fault c) : cycleWith cfg s = .next s := by
  simp only [cycleWith, faulted]

theorem cycleReport_of_faulted {c : Fault} (faulted : s.status = .fault c) : cycleReport cfg s = none := by
  simp only [cycleReport, faulted]

variable {i : Instr} (running : s.status = .running) (decodes : decodeWord cfg s.fetchWord = some i)
include running decodes

theorem cycleWith_of_decodes : cycleWith cfg s = exec i s.advance := by
  simp only [cycleWith, running, decodes]

theorem cycleReport_of_decodes : cycleReport cfg s = none := by
  simp only [cycleReport, running, decodes]

end

/-- Settles O34: both matches of the cycle begin with the status. -/
theorem cycleInFaultStateDoesNothing : Obligations.CycleInFaultStateDoesNothing := fun _ _ _ faulted =>
  ⟨cycleWith_of_faulted faulted, cycleReport_of_faulted faulted, cycleWith_of_faulted faulted⟩

/-- Settles O32: the state the handler runs on is the advanced one. -/
theorem cycleRunsTheDecodedInstruction : Obligations.CycleRunsTheDecodedInstruction := by
  intro cfg s i running decodes
  have hcycle := cycleWith_of_decodes running decodes
  exact ⟨cycleReport_of_decodes running decodes, s.advance, hcycle, s.advance_pc_toNat,
    frame_advance (frame_refl _ _ s) (List.mem_singleton_self _), by rintro rfl; exact hcycle⟩

/-- Settles O48: both states enter the Fault state of the same occasion, whose fields are its free values alone. -/
theorem faultStateCarriesNothingOver : Obligations.FaultStateCarriesNothingOver := by
  intro nnn s s' hfree
  have hsame : ∀ c, s.enterFault c = s'.enterFault c := fun c => by simp only [State.enterFault, hfree]
  constructor
  · intro full full'
    rw [exec_call_of_full nnn (Fin.ext full), exec_call_of_full nnn (Fin.ext full'), hsame]
  · intro empty empty'
    rw [exec_ret_of_empty (Fin.ext empty), exec_ret_of_empty (Fin.ext empty'), hsame]

/-- Settles O35: an unknown word only advances, and a handler raises one of its two faults or leaves the status. -/
theorem cycleEndsNormallyOrInOneOfTwoFaults : Obligations.CycleEndsNormallyOrInOneOfTwoFaults := by
  intro cfg s running
  cases hdecode : decodeWord cfg s.fetchWord with
  | none => exact ⟨_, cycleWith_of_unknown running hdecode, .inl running⟩
  | some i =>
    rw [cycleWith_of_decodes running hdecode]
    cases hfault : faultOf i s.advance with
    | none =>
      obtain ⟨t, hexec, hnamed⟩ := exec_of_no_fault hfault
      exact ⟨t, hexec, .inl (hnamed.status.trans running)⟩
    | some c =>
      refine ⟨_, exec_of_fault hfault, .inr ?_⟩
      cases c with
      | stackOverflow =>
        obtain ⟨full, nnn, rfl⟩ := faultOf_eq_stackOverflow.mp hfault
        exact .inl ⟨rfl, congrArg Fin.val full, nnn, rfl⟩
      | stackUnderflow =>
        obtain ⟨empty, rfl⟩ := faultOf_eq_stackUnderflow.mp hfault
        exact .inr ⟨rfl, congrArg Fin.val empty, rfl⟩

/-- A cycle is clean when the block runs, the word is an instruction, and its handler raises no fault. -/
theorem cycleIsClean_iff (cfg : Config) (s : State) : cycleIsClean cfg s = true ↔
    s.status = .running ∧ ∃ i, decodeWord cfg s.fetchWord = some i ∧ faultOf i s.advance = none := by
  cases hstatus : s.status with
  | fault c => simp [cycleIsClean, State.safe, hstatus]
  | running =>
    cases hdecode : decodeWord cfg s.fetchWord with
    | none => simp [cycleIsClean, cycleReport_of_unknown hstatus hdecode]
    | some i =>
      have hcycle := cycleWith_of_decodes hstatus hdecode
      have hreport := cycleReport_of_decodes hstatus hdecode
      cases hfault : faultOf i s.advance with
      | none =>
        obtain ⟨t, hexec, hnamed⟩ := exec_of_no_fault hfault
        have ht : t.status = .running := hnamed.status.trans hstatus
        simp [cycleIsClean, State.safe, hstatus, hreport, hcycle, hexec, ht, hfault]
      | some c =>
        simp [cycleIsClean, State.safe, hstatus, hreport, hcycle, exec_of_fault hfault, hfault]

theorem faultOf_eq_none_iff (i : Instr) (s : State) : faultOf i s = none ↔
    ((∃ nnn, i = .call nnn) → s.sp.val < 12) ∧ (i = .ret → 0 < s.sp.val) := by
  have hroom : s.sp ≠ 12 ↔ s.sp.val < 12 := by
    have := s.sp.isLt
    rw [Ne, Fin.ext_iff]
    change s.sp.val ≠ 12 ↔ _
    omega
  cases i with
  | call => simpa [faultOf] using hroom
  | _ => simp [faultOf]

/-- Settles O36: the stack pointer a handler tests is the one before the cycle. -/
theorem cycleIsCleanWhenNothingGoesWrong : Obligations.CycleIsCleanWhenNothingGoesWrong := by
  intro cfg s
  simp only [cycleIsClean_iff, faultOf_eq_none_iff, State.advance_sp]

end Sys2Proof.Machine
end

section
/-! The invariant (R35, R109): memory stays canonical, and a pending wait stays at the LD Vr, K that set it, through
every cycle, every host event, and every well-formed session. -/

namespace Sys2Proof.Machine

open Sys2Proof.Claims

/-! The two ways to have the invariant with nothing to show about the fetched word. -/

theorem State.inv_of_wait_none {cfg : Config} {s : State} (hwf : Memory.wf s.mem = true) (hwait : s.wait = none) :
    s.Inv cfg :=
  ⟨hwf, fun _ r hr => by rw [hwait] at hr; cases hr⟩

theorem State.inv_of_not_running {cfg : Config} {s : State} (hwf : Memory.wf s.mem = true)
    (hstatus : s.status ≠ .running) : s.Inv cfg :=
  ⟨hwf, fun running => absurd running hstatus⟩

theorem State.inv_enterFault (cfg : Config) (s : State) (c : Fault) : (s.enterFault c).Inv cfg :=
  inv_of_not_running (s.enterFault_wf c) (by simp)

theorem State.fetchWord_congr {s t : State} (hmem : t.mem = s.mem) (hpc : t.pc = s.pc) : t.fetchWord = s.fetchWord := by
  rw [State.fetchWord_eq, State.fetchWord_eq, hmem, hpc]

/-- The invariant reads memory, `pc`, the marker and the status. -/
theorem State.Inv.congr {cfg : Config} {s t : State} (h : s.Inv cfg) (hmem : t.mem = s.mem) (hpc : t.pc = s.pc)
    (hwait : t.wait = s.wait) (hstatus : t.status = s.status) : t.Inv cfg := by
  obtain ⟨hwf, hpoints⟩ := h
  refine ⟨hmem ▸ hwf, fun running r hr => ?_⟩
  rw [State.fetchWord_congr hmem hpc]
  exact hpoints (hstatus ▸ running) r (hwait ▸ hr)

/-- Settles O56: at reset nothing is listed in memory and no wait is pending. -/
theorem resetSatisfiesInvariant : Obligations.ResetSatisfiesInvariant := fun _ => State.inv_of_wait_none rfl rfl

/-! The cycle. -/

/-- LD Vr, K takes `pc` back over the cycle's advance, so of the whole cycle only the marker is left (R206, R102). -/
theorem cycleWith_of_keyWait {cfg : Config} {s : State} {r : Reg} (running : s.status = .running)
    (decodes : decodeWord cfg s.fetchWord = some (.ldVxK r)) : cycleWith cfg s = .next (s.setWait (some r)) := by
  have hpc : s.pc + 2 - 2 = s.pc := BitVec.add_sub_cancel s.pc 2
  rw [cycleWith_of_decodes running decodes]
  change Host.Outcome.next ((s.advance.setWait (some r)).setPc (s.pc + 2 - 2)) = _
  rw [hpc]
  rfl

/-- Settles O38: the marker is set to what it holds already. -/
theorem cycleWhileWaitingChangesNothing : Obligations.CycleWhileWaitingChangesNothing := by
  intro cfg s r ⟨_, hpoints⟩ running hwait
  rw [cycleWith_of_keyWait running (hpoints running r hwait), ← hwait]
  rfl

/-- Every handler keeps memory canonical: only LD B and LD [I] store, and stores keep it so. -/
theorem exec_wf {i : Instr} {s t : State} (hwf : Memory.wf s.mem = true) (hexec : exec i s = .next t) :
    Memory.wf t.mem = true := by
  cases hfault : faultOf i s with
  | some c =>
    cases (exec_of_fault hfault).symm.trans hexec
    exact s.enterFault_wf c
  | none =>
    by_cases hi : writesMemory i
    · obtain ⟨x, rfl | rfl⟩ := hi
      · cases hexec
        exact State.memWrite_wf _ (State.memWrite_wf _ (State.memWrite_wf _ hwf _ _) _ _) _ _
      · cases hexec
        exact State.dumpRegs_wf s hwf _
    · obtain ⟨u, hu, hnamed⟩ := exec_of_no_fault hfault
      cases hu.symm.trans hexec
      exact hnamed.memory hi ▸ hwf

/-- Settles O57: while the marker is set the cycle is that of LD Vr, K; without it only LD Vr, K sets it, and that
instruction leaves `pc` at itself. -/
theorem cycleKeepsInvariant : Obligations.CycleKeepsInvariant := by
  intro cfg s hinv
  have ⟨hwf, hpoints⟩ := hinv
  cases running : s.status with
  | fault c => exact ⟨s, cycleWith_of_faulted running, hinv⟩
  | running =>
    cases hdecode : decodeWord cfg s.fetchWord with
    | none =>
      refine ⟨_, cycleWith_of_unknown running hdecode, hwf, fun _ r hr => ?_⟩
      cases hdecode.symm.trans (hpoints running r hr)
    | some i =>
      by_cases hwaits : ∃ x, i = .ldVxK x
      · obtain ⟨x, rfl⟩ := hwaits
        refine ⟨_, cycleWith_of_keyWait running hdecode, hwf, fun _ r hr => ?_⟩
        cases hr
        exact hdecode
      · rw [cycleWith_of_decodes running hdecode]
        cases hfault : faultOf i s.advance with
        | some c => exact ⟨_, exec_of_fault hfault, State.inv_enterFault cfg _ c⟩
        | none =>
          obtain ⟨t, hexec, hnamed⟩ := exec_of_no_fault hfault
          refine ⟨t, hexec, exec_wf (s := s.advance) hwf hexec, fun _ r hr => ?_⟩
          have hi := hdecode.symm.trans (hpoints running r (hnamed.wait hwaits ▸ hr))
          exact absurd ⟨r, Option.some.inj hi⟩ hwaits

/-! The host events. -/

theorem State.whileRunning_of_faulted {s : State} {c : Fault} (faulted : s.status = .fault c) (effect : State) :
    s.whileRunning effect = s.enterFault c := by
  simp only [State.whileRunning, faulted]

/-- An event that has its effect in a running state alone keeps the invariant if the effect does. -/
theorem State.inv_whileRunning {cfg : Config} {s effect : State} (h : s.status = .running → effect.Inv cfg) :
    (s.whileRunning effect).Inv cfg := by
  cases running : s.status with
  | running =>
    rw [State.whileRunning_of_running running]
    exact h running
  | fault c =>
    rw [State.whileRunning_of_faulted running]
    exact State.inv_enterFault cfg s c

theorem State.endWait_of_some {s : State} {r : Reg} (h : s.wait = some r) (k : Key) :
    s.endWait k = ((s.setV r (byteOfKey k)).setWait none).setPc (s.pc + 2) := by
  simp only [State.endWait, h]

theorem State.endWait_of_none {s : State} (h : s.wait = none) (k : Key) : s.endWait k = s := by
  simp only [State.endWait, h]

theorem State.Inv.endWait {cfg : Config} {s : State} (h : s.Inv cfg) (k : Key) : (s.endWait k).Inv cfg := by
  cases hwait : s.wait with
  | none => exact (State.endWait_of_none hwait k).symm ▸ h
  | some r =>
    rw [State.endWait_of_some hwait]
    exact State.inv_of_wait_none h.1 rfl

/-- Settles O58: a store could overwrite the word a wait points at, so LoadMem needs its proviso; the other events
leave memory alone. -/
theorem hostEventsKeepInvariant : Obligations.HostEventsKeepInvariant := by
  intro cfg s e hinv hload
  cases e with
  | cycle => exact cycleKeepsInvariant cfg s hinv
  | reset => exact ⟨_, rfl, State.inv_of_wait_none rfl rfl⟩
  | readFramebuffer => exact ⟨_, rfl, hinv⟩
  | timerTick => exact ⟨_, rfl, State.inv_whileRunning fun _ => hinv.congr rfl rfl rfl rfl⟩
  | keyUp k => exact ⟨_, rfl, State.inv_whileRunning fun _ => hinv.congr rfl rfl rfl rfl⟩
  | keyDown k =>
    refine ⟨_, rfl, State.inv_whileRunning fun _ => ?_⟩
    split
    · exact hinv
    · have hset : (s.setKey (keySet s.key k)).Inv cfg := hinv.congr rfl rfl rfl rfl
      exact hset.endWait k
  | loadMem a b =>
    refine ⟨_, rfl, State.inv_whileRunning fun running => ?_⟩
    have hwait : s.wait = none := by simpa [running] using hload
    exact State.inv_of_wait_none (s.memWrite_wf hinv.1 a b) hwait

/-! Sessions (R227, R236). -/

/-- Before the first cycle the block runs and no wait is pending. -/
def SessionInv (cfg : Config) (begun : Bool) (s : State) : Prop :=
  s.Inv cfg ∧ (begun = false → s.status = .running ∧ s.wait = none)

/-- Whether a cycle has been issued since the last reset, after the event `e` (R236). -/
def begunAfter (begun : Bool) (e : HostEvent) : Bool :=
  match e with
  | .reset => false
  | .cycle => true
  | _ => begun

theorem eventsWellFormed_cons {begun : Bool} {e : HostEvent} {es : List HostEvent}
    (h : eventsWellFormed begun (e :: es) = true) :
    eventsWellFormed (begunAfter begun e) es = true ∧ ((∃ a b, e = .loadMem a b) → begun = false) := by
  cases e with
  | loadMem a b =>
    obtain ⟨hbegun, hes⟩ := (Bool.and_eq_true ..).mp h
    exact ⟨hes, fun _ => Bool.not_eq_true' _ |>.mp hbegun⟩
  | _ => exact ⟨h, by simp⟩

/-- No event but a cycle faults or sets the marker. -/
theorem hostEvent_keeps_unbegun {cfg : Config} {e : HostEvent} {s t : State} (he : e ≠ .cycle)
    (running : s.status = .running) (hwait : s.wait = none) (hevent : hostEvent cfg e s = .next t) :
    t.status = .running ∧ t.wait = none := by
  cases e with
  | cycle => exact absurd rfl he
  | reset =>
    cases hevent
    exact ⟨rfl, rfl⟩
  | readFramebuffer =>
    cases hevent
    exact ⟨running, hwait⟩
  | timerTick | keyUp | loadMem =>
    cases hevent
    simp [State.timerTick, State.keyUp, State.loadMem, State.whileRunning_of_running running, running, hwait]
  | keyDown k =>
    have hset : (s.setKey (keySet s.key k)).wait = none := hwait
    cases hevent
    rw [State.keyDown, State.whileRunning_of_running running, State.endWait_of_none hset]
    split <;> exact ⟨running, hwait⟩

theorem hostEvent_keeps_sessionInv {cfg : Config} {begun : Bool} {s : State} {e : HostEvent}
    (h : SessionInv cfg begun s) (hload : (∃ a b, e = .loadMem a b) → begun = false) :
    ∃ t, hostEvent cfg e s = .next t ∧ SessionInv cfg (begunAfter begun e) t := by
  obtain ⟨hinv, hunbegun⟩ := h
  have hproviso : (∀ a b, e ≠ .loadMem a b) ∨ s.wait = none ∨ s.status ≠ .running := by
    by_cases he : ∃ a b, e = .loadMem a b
    · exact .inr (.inl (hunbegun (hload he)).2)
    · exact .inl fun a b hab => he ⟨a, b, hab⟩
  obtain ⟨t, hevent, ht⟩ := hostEventsKeepInvariant cfg s e hinv hproviso
  refine ⟨t, hevent, ht, fun hafter => ?_⟩
  cases e with
  | cycle => cases hafter
  | reset =>
    cases hevent
    exact ⟨rfl, rfl⟩
  | _ =>
    obtain ⟨running, hwait⟩ := hunbegun hafter
    exact hostEvent_keeps_unbegun (by simp) running hwait hevent

theorem hostRun_keeps_inv {cfg : Config} {es : List HostEvent} {begun : Bool} {s : State} (h : SessionInv cfg begun s)
    (hes : eventsWellFormed begun es = true) : ∃ t, hostRun cfg es s = .next t ∧ t.Inv cfg := by
  induction es generalizing begun s with
  | nil => exact ⟨s, rfl, h.1⟩
  | cons e es ih =>
    obtain ⟨hrest, hload⟩ := eventsWellFormed_cons hes
    obtain ⟨t, hevent, ht⟩ := hostEvent_keeps_sessionInv h hload
    obtain ⟨u, hrun, hu⟩ := ih ht hrest
    exact ⟨u, by rw [hostRun, hevent]; exact hrun, hu⟩

/-- Settles O59: reset has the session's invariant, and every event of a well-formed session keeps it. -/
theorem wellFormedSessionsKeepInvariant : Obligations.WellFormedSessionsKeepInvariant := fun cfg _ hes =>
  hostRun_keeps_inv ⟨resetSatisfiesInvariant cfg, fun _ => ⟨rfl, rfl⟩⟩ hes

end Sys2Proof.Machine
end

section
/-! The flag writers (42_alu.md section 4, R171): a flag is a condition on the operands as numbers, and a handler is two
register writes, the later of which remains when x = F. -/

namespace Sys2Proof.Machine

open Sys2Proof.Claims

theorem flagByte_toNat {c : Bool} {P : Prop} [Decidable P] (hc : c = true ↔ P) : (flagByte c).toNat = bit P := by
  by_cases hP : P
  · rw [flagByte, if_pos (hc.mpr hP), bit, if_pos hP]
    rfl
  · rw [flagByte, if_neg (mt hc.mp hP), bit, if_neg hP]
    rfl

/-- The top bit of a number says whether it reaches the half of its range. -/
theorem getLsbD_top_iff {w : Nat} (a : BitVec (w + 1)) : a.getLsbD w = true ↔ 2 ^ w ≤ a.toNat := by
  have hmsb : a.getLsbD w = a.msb := by rw [BitVec.msb_eq_getLsbD_last, Nat.add_sub_cancel]
  rw [hmsb, BitVec.msb_eq_decide, Nat.add_sub_cancel, decide_eq_true_iff]

theorem sum9_toNat (a b : Byte) : (sum9 a b).toNat = a.toNat + b.toNat := by
  have := a.isLt
  have := b.isLt
  simp only [sum9, BitVec.toNat_add, BitVec.toNat_setWidth]
  omega

theorem addFlag_iff (a b : Byte) : addFlag a b = true ↔ 255 < a.toNat + b.toNat := by
  rw [addFlag, getLsbD_top_iff, sum9_toNat]
  omega

theorem subFlag_iff (a b : Byte) : subFlag a b = true ↔ b.toNat < a.toNat := by
  rw [subFlag, decide_eq_true_iff, BitVec.lt_def]

theorem subnFlag_iff (b r : Byte) : subnFlag b r = true ↔ r.toNat < b.toNat := by
  rw [subnFlag, decide_eq_true_iff, BitVec.lt_def]

theorem flagByte_shrFlag_toNat (b : Byte) : (flagByte (shrFlag b)).toNat = b.toNat % 2 := by
  have hbit : shrFlag b = true ↔ b.toNat % 2 = 1 := by
    rw [shrFlag, BitVec.getLsbD, Nat.testBit_zero, decide_eq_true_iff]
  rw [flagByte_toNat hbit, bit]
  split <;> omega

theorem flagByte_shlFlag_toNat (b : Byte) : (flagByte (shlFlag b)).toNat = b.toNat / 128 := by
  have := b.isLt
  have hbit : shlFlag b = true ↔ 128 ≤ b.toNat := getLsbD_top_iff b
  rw [flagByte_toNat hbit, bit]
  split <;> omega

/-- Of two register writes the earlier remains in its register unless the later goes there too. -/
theorem State.getV_setV_setV (s : State) {x y : Reg} (hxy : x ≠ y) (b c : Byte) :
    ((s.setV x b).setV y c).getV x = b := by
  rw [State.getV_setV, if_neg hxy, State.getV_setV_same]

/-- A write of Vx and a write of VF, in either order, change those two registers alone. -/
theorem frame_setV_setV (s : State) (x y : Reg) (b c : Byte) : frame [x, y] [] s ((s.setV x b).setV y c) :=
  frame_setV (frame_setV (frame_refl _ _ s) (by simp) b) (by simp) c

/-- Settles O11: the low byte of the 9-bit sum, then its top bit. -/
theorem addWritesSumThenCarry : Obligations.AddWritesSumThenCarry := by
  intro x y s
  refine ⟨_, rfl, fun hx => ?sum, ?carry, frame_setV_setV s x vf _ _⟩
  case sum => rw [State.getV_setV_setV s hx, BitVec.toNat_setWidth, sum9_toNat]
  case carry => rw [State.getV_setV_same, flagByte_toNat (addFlag_iff _ _)]

theorem byte_sub_toNat (a b : Byte) : (a - b).toNat = (a.toNat + 256 - b.toNat) % 256 := by
  rw [BitVec.toNat_sub]
  omega

/-- Settles O12: the flag is written first, so with x = F the difference replaces it. -/
theorem subWritesFlagThenDifference : Obligations.SubWritesFlagThenDifference := by
  intro x y s
  refine ⟨_, rfl, ?difference, fun hx => ?flag, ?frame⟩
  case difference => rw [State.getV_setV_same, byte_sub_toNat]
  case flag => rw [State.getV_setV_setV s hx.symm, flagByte_toNat (subFlag_iff _ _)]
  case frame => exact frame_setV (frame_setV (frame_refl _ _ s) (by simp) _) (by simp) _

/-- Settles O13: the half of Vy, then the bit shifted out. -/
theorem shiftRightHalvesVy : Obligations.ShiftRightHalvesVy := by
  intro x y s
  refine ⟨_, rfl, fun hx => ?half, ?flag, frame_setV_setV s x vf _ _⟩
  case half => rw [State.getV_setV_setV s hx, BitVec.toNat_ushiftRight, Nat.shiftRight_eq_div_pow, pow_one]
  case flag => rw [State.getV_setV_same, flagByte_shrFlag_toNat]

/-- Settles O15: the double of Vy modulo 256, then the bit shifted out. -/
theorem shiftLeftDoublesVy : Obligations.ShiftLeftDoublesVy := by
  intro x y s
  refine ⟨_, rfl, fun hx => ?double, ?flag, frame_setV_setV s x vf _ _⟩
  case double =>
    rw [State.getV_setV_setV s hx, BitVec.toNat_shiftLeft, Nat.shiftLeft_eq, pow_one, Nat.mul_comm]
  case flag => rw [State.getV_setV_same, flagByte_shlFlag_toNat]

/-- Settles O14: the flag compares the latched Vy with the difference just written. -/
theorem reverseSubtractFlagsAgainstNewVx : Obligations.ReverseSubtractFlagsAgainstNewVx := by
  intro x y s
  refine ⟨_, rfl, fun hx => ?difference, ?flag, frame_setV_setV s x vf _ _⟩
  case difference => rw [State.getV_setV_setV s hx, byte_sub_toNat]
  case flag => simp only [State.getV_setV_same, flagByte_toNat (subnFlag_iff _ _), byte_sub_toNat]

/-- Settles O16: `b - a` modulo 256 is below `b` exactly when `0 < a ≤ b`, against the conventional `a < b`. -/
theorem reverseSubtractFlagDiffersInTwoCases : Obligations.ReverseSubtractFlagDiffersInTwoCases := by
  intro x y s
  obtain ⟨t, hexec, -, hflag, -⟩ := reverseSubtractFlagsAgainstNewVx x y s
  refine ⟨t, hexec, ?_⟩
  have ha := (s.getV x).isLt
  have hb := (s.getV y).isLt
  rw [hflag, bit, bit]
  split <;> split <;> omega

theorem indexSum_toNat (i : Word) (a : Byte) : (indexSum i a).toNat = i.toNat % 4096 + a.toNat := by
  have := a.isLt
  simp only [indexSum, BitVec.toNat_add, BitVec.toNat_setWidth, BitVec.extractLsb'_toNat, Nat.shiftRight_zero]
  omega

theorem indexFlag_indexSum_iff (i : Word) (a : Byte) :
    indexFlag (indexSum i a) = true ↔ 4095 < i.toNat % 4096 + a.toNat := by
  rw [indexFlag, getLsbD_top_iff, indexSum_toNat]
  omega

/-- Settles O18: the 13-bit sum, then its top bit. -/
theorem addToIndexFlagsTwelveBitOverflow : Obligations.AddToIndexFlagsTwelveBitOverflow := by
  intro x s
  refine ⟨_, rfl, ?sum, ?flag, frame_setV (frame_setI (frame_refl _ _ s) (by decide) _) (by decide) _⟩
  case sum =>
    have hwiden : ((indexSum s.i (s.getV x)).setWidth 16).toNat = (indexSum s.i (s.getV x)).toNat :=
      BitVec.toNat_setWidth_of_le (by decide)
    exact hwiden.trans (indexSum_toNat _ _)
  case flag => rw [State.getV_setV_same, flagByte_toNat (indexFlag_indexSum_iff _ _)]

theorem fontAddress_toNat (a : Byte) : (fontAddress a).toNat = 80 + 5 * a.toNat := by
  have := a.isLt
  have hwide := zext16OfByte_toNat a
  rw [fontAddress, fontBase]
  bv_omega

/-- Settles O19: the sum of the widened operands stays below 65536. -/
theorem fontAddressIsBasePlusFiveVx : Obligations.FontAddressIsBasePlusFiveVx := fun x s =>
  ⟨_, rfl, fontAddress_toNat (s.getV x), frame_setI (frame_refl _ _ s) (List.mem_singleton_self _) _⟩

end Sys2Proof.Machine
end

section
/-! RET, the call and return round trip, and the skips on keys (41_control_flow.md, 45_timers_keys_random.md). -/

namespace Sys2Proof.Machine

open Sys2Proof.Claims

theorem frame_pop {regs : List Reg} {parts : List Part} {s t : State} (h : frame regs parts s t)
    (hstack : .callStack ∈ parts) : frame regs parts s t.pop := by
  refine ⟨h.1, fun p hp => ?_⟩
  cases p with
  | callStack => exact absurd hstack hp
  | _ => exact h.2 _ hp

/-- Settles O4: the handler tests for the empty stack first, so each case is one branch of it. -/
theorem retPopsYoungestEntryOrUnderflows : Obligations.RetPopsYoungestEntryOrUnderflows := by
  intro s
  constructor
  · intro hpos
    have entry : s.sp ≠ 0 := fun empty => absurd hpos (by rw [empty]; decide)
    exact ⟨_, exec_ret_of_entry entry, rfl, rfl, rfl,
      frame_setPc (frame_pop (frame_refl _ _ s) (by decide)) (by decide) _⟩
  · intro hempty
    exact ⟨_, exec_ret_of_empty (Fin.ext hempty), State.enterFault_status s _⟩

/-- The state after a cycle that calls `a`, up to the call itself (R122). -/
def State.called (s : State) (a : Addr) : State := (s.advance.push (s.pc + 2)).setPc (zext16OfAddr a)

/-- After a CALL the next fetch is at the address called (R101). -/
theorem State.called_fetchWord (s : State) (a : Addr) :
    (s.called a).fetchWord = s.memRead a.toNat ++ s.memRead (a.toNat + 1) := by
  have hpc : (s.called a).pc.toNat = a.toNat := zext16OfAddr_toNat a
  rw [State.fetchWord, hpc]
  rfl

/-- The state after a cycle that returns (R120). -/
def State.returned (s : State) : State := s.advance.pop.setPc s.top

/-- Settles O8: RET reads the entry CALL wrote, and drops it. -/
theorem callThenRetReturnsAfterTheCall : Obligations.CallThenRetReturnsAfterTheCall := by
  intro cfg s a running hlt hcall hret
  have room : s.advance.sp ≠ 12 := fun full => absurd hlt (by rw [← s.advance_sp, full]; decide)
  have hpush := State.push_sp_val s.advance (s.pc + 2) room
  have entry : (s.called a).advance.sp ≠ 0 := fun empty => by
    have hzero : (s.advance.push (s.pc + 2)).sp.val = 0 := congrArg Fin.val empty
    omega
  refine ⟨s.called a, (s.called a).returned, ?call, ?ret, ?pc, ?sp, fun j hj => ?stack, ?frame⟩
  case call => rw [cycleWith_of_decodes running hcall, exec_call_of_room a room]; rfl
  case ret =>
    rw [← s.called_fetchWord a] at hret
    rw [cycleWith_of_decodes (s := s.called a) running hret, exec_ret_of_entry entry]
    rfl
  case pc => exact State.top_push s.advance (s.pc + 2) room
  case sp => exact State.sp_pop_push s.advance (s.pc + 2) room
  case stack => exact (State.push_stack_get s.advance (s.pc + 2) j.val j.isLt).trans (if_neg hj)
  case frame =>
    have hadvance := frame_advance (frame_refl [] [.pc, .callStack] s) (by decide)
    have hcalled : frame [] [.pc, .callStack] s (s.called a) :=
      frame_setPc (frame_push hadvance (by decide) _) (by decide) _
    exact frame_setPc (frame_pop (frame_advance hcalled (by decide)) (by decide)) (by decide) _

/-- Settles O7: SKP and SKNP are skips under the key's bit and its negation. -/
theorem skipsTestTheKeyNumberedByVx : Obligations.SkipsTestTheKeyNumberedByVx := fun _ _ =>
  ⟨skips_of_exec_eq rfl Iff.rfl, skips_of_exec_eq rfl (Bool.not_eq_true' _).to_iff⟩

end Sys2Proof.Machine
end

section
/-! The random byte and the key wait (45_timers_keys_random.md). -/

namespace Sys2Proof.Machine

open Sys2Proof.Claims

section
variable {regs : List Reg} {parts : List Part} {s t : State} (h : frame regs parts s t)
include h

theorem frame_countFree (hcount : .freeCount ∈ parts) : frame regs parts s t.countFree := by
  refine ⟨h.1, fun p hp => ?_⟩
  cases p with
  | freeCount => exact absurd hcount hp
  | _ => exact h.2 _ hp

theorem frame_setWait (hwait : .waitMarker ∈ parts) (r : Option Reg) : frame regs parts s (t.setWait r) := by
  refine ⟨h.1, fun p hp => ?_⟩
  cases p with
  | waitMarker => exact absurd hwait hp
  | _ => exact h.2 _ hp

end

/-- Settles O28: nothing is used of the free byte; the mask is read off at each bit. -/
theorem randomByteIsMasked : Obligations.RandomByteIsMasked := by
  intro x kk s
  refine ⟨_, rfl, fun j _ => ?_, rfl, frame_countFree (frame_setV (frame_refl _ _ s) (by simp) _) (by decide)⟩
  rw [State.countFree_getV, State.getV_setV_same, BitVec.getLsbD_and, Bool.and_eq_true, and_comm]
  rfl

/-- Settles O30: one write of the marker and one of `pc`. -/
theorem keyWaitSetsMarkerAndRewinds : Obligations.KeyWaitSetsMarkerAndRewinds := by
  intro x s
  refine ⟨_, rfl, rfl, ?_, frame_setPc (frame_setWait (frame_refl _ _ s) (by decide) _) (by decide) _⟩
  rw [State.setPc_pc, BitVec.toNat_sub, Nat.add_comm]
  rfl

theorem keySet_getLsbD_iff (keys : BitVec 16) (k j : Key) :
    (keySet keys k).getLsbD j.val = true ↔ j = k ∨ keys.getLsbD j.val = true := by
  have sets : (BitVec.twoPow 16 k.val).getLsbD j.val = true ↔ j = k := by
    simp [Fin.val_inj, eq_comm]
  rw [keySet, BitVec.getLsbD_or, Bool.or_eq_true, sets, or_comm]

theorem byteOfKey_toNat (k : Key) : (byteOfKey k).toNat = k.val :=
  Nat.mod_eq_of_lt (by omega)

theorem hostEvent_keyDown_of_running (cfg : Config) {s : State} (running : s.status = .running) (k : Key) :
    hostEvent cfg (.keyDown k) s =
      .next (if s.key.getLsbD k.val then s else (s.setKey (keySet s.key k)).endWait k) :=
  congrArg Host.Outcome.next (State.whileRunning_of_running running _)

/-- Settles O42: a key already down leaves the state; otherwise the wait, if any, ends after the key bit is set. -/
theorem keyDownSetsKeyAndEndsWait : Obligations.KeyDownSetsKeyAndEndsWait := by
  intro cfg s k running
  have hevent := hostEvent_keyDown_of_running cfg running k
  constructor
  · intro hdown
    rw [hevent, if_pos hdown]
  · intro hup
    have hkeys := frame_setKey (parts := [.keys]) (frame_refl [] _ s) (by decide) (keySet s.key k)
    rw [hevent, if_neg (by rw [hup]; decide)]
    cases hwait : s.wait with
    | none =>
      rw [State.endWait_of_none (s := s.setKey (keySet s.key k)) hwait]
      exact ⟨_, rfl, keySet_getLsbD_iff s.key k, fun _ => hkeys, fun r hr => by cases hr⟩
    | some r =>
      rw [State.endWait_of_some (s := s.setKey (keySet s.key k)) hwait]
      refine ⟨_, rfl, keySet_getLsbD_iff s.key k, fun h => (by cases h), fun r' hr => ?_⟩
      cases hr
      refine ⟨?number, rfl, BitVec.toNat_add _ _, ?frame⟩
      case number => exact (congrArg BitVec.toNat (State.getV_setV_same _ r _)).trans (byteOfKey_toNat k)
      case frame =>
        have hset := frame_setKey (frame_refl [r] [.keys, .waitMarker, .pc] s) (by decide) (keySet s.key k)
        exact frame_setPc (frame_setWait (frame_setV hset (by simp) _) (by decide) _) (by decide) _

/-- Settles O45: every part of the reset state, whatever came before it. -/
theorem resetEventPutsEveryPartAtItsResetValue : Obligations.ResetEventPutsEveryPartAtItsResetValue := by
  intro cfg s
  refine ⟨s.afterReset, rfl, rfl, fun r => ?registers, rfl, rfl, rfl, rfl, fun _ => rfl, fun cx cy _ _ => ?screen,
    fun k => ?keys, rfl, rfl⟩
  case registers => exact Vector.getElem_replicate ..
  case screen => exact fbRead_clear cx cy
  case keys => exact BitVec.getLsbD_zero

/-- Settles O46: Reset runs; the cycle and a read leave the state; any other event enters the same Fault state anew. -/
theorem onlyResetLeavesAFaultState : Obligations.OnlyResetLeavesAFaultState := by
  intro cfg s c e faulted
  cases e with
  | reset => exact ⟨_, rfl, by simp [State.afterReset, State.reset], by simp⟩
  | cycle => exact ⟨s, cycleWith_of_faulted faulted, by simp [faulted], fun _ => faulted⟩
  | readFramebuffer => exact ⟨s, rfl, by simp [faulted], fun _ => faulted⟩
  | loadMem | timerTick | keyDown | keyUp =>
    exact ⟨_, congrArg Host.Outcome.next (State.whileRunning_of_faulted faulted _), by simp, fun _ => rfl⟩

end Sys2Proof.Machine
end

section
/-! The block transfers (R174 to R176), the fetch after a store (R63), and a program placed where it is fetched. -/

namespace Sys2Proof.Machine

open Sys2Proof.Claims

/-- A memory access reduces its address modulo 4096 (R50). -/
theorem State.memRead_congr (s : State) {a b : Nat} (h : a % 4096 = b % 4096) : s.memRead a = s.memRead b := by
  rw [State.memRead, State.memRead, h]

theorem frame_dumpRegs {regs : List Reg} {parts : List Part} {s t : State} (h : frame regs parts s t)
    (hindex : .index ∈ parts) (hmemory : .memory ∈ parts) (n : Nat) : frame regs parts s (t.dumpRegs n) := by
  induction n with
  | zero => exact h
  | succ n ih => exact frame_setI (frame_memWrite ih hmemory _ _) hindex _

theorem add_ofNat_toNat (w : Word) (n : Nat) : (w + BitVec.ofNat 16 n).toNat = (w.toNat + n) % 65536 := by
  rw [BitVec.toNat_add, BitVec.toNat_ofNat, Nat.add_mod_mod]

/-- Settles O21: the `x + 1` rounds of the dump. -/
theorem registerDumpStoresV0ToVx : Obligations.RegisterDumpStoresV0ToVx := by
  intro x s hwf
  obtain ⟨hstored, hkept⟩ := State.dumpRegs_memRead s hwf (x.val + 1) (by omega)
  refine ⟨_, rfl, fun r hr => hstored r (Nat.lt_succ_of_le hr), hkept, ?index,
    frame_dumpRegs (frame_refl _ _ s) (by decide) (by decide) _⟩
  case index => rw [State.dumpRegs_i, add_ofNat_toNat, Nat.add_assoc]

/-- A register load changes no part but `I`. -/
theorem agreesOn_loadRegs (s : State) (n : Nat) {p : Part} (hp : p ≠ .index) : agreesOn s (s.loadRegs n) p := by
  cases p with
  | index => exact absurd rfl hp
  | _ => simp [agreesOn]

/-- Settles O22: the `x + 1` rounds of the load. -/
theorem registerLoadReadsV0ToVx : Obligations.RegisterLoadReadsV0ToVx := by
  intro x s
  refine ⟨_, rfl, fun r => ?registers, ?index, fun p => agreesOn_loadRegs s _⟩
  case registers =>
    have hle : r.val < x.val + 1 ↔ r ≤ x := Nat.lt_succ_iff
    rw [State.loadRegs_getV s _ (by omega), indexAddress]
    simp only [hle]
  case index => rw [State.loadRegs_i, add_ofNat_toNat, Nat.add_assoc]

/-- Settles O23: the load reads each register where the dump stored it. -/
theorem dumpThenLoadRestoresRegisters : Obligations.DumpThenLoadRestoresRegisters := by
  intro k s hwf
  obtain ⟨t, hdump, hstored, -, hi, -⟩ := registerDumpStoresV0ToVx k s hwf
  refine ⟨t, hdump, hi, fun u hui hread => ?_⟩
  obtain ⟨w, hload, hloaded, hwi, -⟩ := registerLoadReadsV0ToVx k u
  refine ⟨w, hload, fun r hr => ?registers, BitVec.eq_of_toNat_eq (by rw [hwi, hi, hui])⟩
  case registers => rw [hloaded, if_pos hr, hui, hread, hstored r hr]

theorem State.fetchWord_high (s : State) : s.fetchWord.toNat / 256 = (s.memRead s.pc.toNat).toNat := by
  have := (s.memRead (s.pc.toNat + 1)).isLt
  rw [State.fetchWord, wordOfBytes_toNat]
  omega

theorem State.fetchWord_low (s : State) : s.fetchWord.toNat % 256 = (s.memRead (s.pc.toNat + 1)).toNat := by
  have := (s.memRead (s.pc.toNat + 1)).isLt
  rw [State.fetchWord, wordOfBytes_toNat]
  omega

/-- Settles O24: the fetch reads memory as the dump left it, an octet at a time. -/
theorem storeIsSeenByTheNextFetch : Obligations.StoreIsSeenByTheNextFetch := by
  intro x r s hwf hr
  obtain ⟨t, hdump, hstored, -⟩ := registerDumpStoresV0ToVx x s hwf
  refine ⟨t, hdump, fun hhigh => ?_, fun hlow => ?_⟩
  · rw [State.fetchWord_high, t.memRead_congr hhigh, hstored r hr]
  · rw [State.fetchWord_low, t.memRead_congr hlow, hstored r hr]

/-! Placing bytes (log 21, R261). -/

section
variable (s : State) (a : Nat) (bs : List Byte)

theorem State.placeBytes_status : (s.placeBytes a bs).status = s.status := by
  induction bs generalizing s a with
  | nil => rfl
  | cons b bs ih => exact ih (s.memWrite a b) (a + 1)

theorem State.placeBytes_pc : (s.placeBytes a bs).pc = s.pc := by
  induction bs generalizing s a with
  | nil => rfl
  | cons b bs ih => exact ih (s.memWrite a b) (a + 1)

variable {s a bs}

theorem State.placeBytes_wf (hwf : Memory.wf s.mem = true) : Memory.wf (s.placeBytes a bs).mem = true := by
  induction bs generalizing s a with
  | nil => exact hwf
  | cons b bs ih => exact ih (s.memWrite_wf hwf a b)

theorem State.memRead_placeBytes_outside (hwf : Memory.wf s.mem = true) {c : Nat}
    (hc : ∀ k < bs.length, c % 4096 ≠ (a + k) % 4096) : (s.placeBytes a bs).memRead c = s.memRead c := by
  induction bs generalizing s a with
  | nil => rfl
  | cons b bs ih =>
    have hrest := ih (s.memWrite_wf hwf a b) (a := a + 1) fun k hk => by
      have := hc (k + 1) (by simpa using hk)
      rwa [Nat.add_right_comm, Nat.add_assoc]
    have hfirst : c % 4096 ≠ a % 4096 := hc 0 (by simp)
    rw [State.placeBytes, hrest, State.memRead_memWrite _ hwf, if_neg hfirst]

theorem State.memRead_placeBytes_inside (hwf : Memory.wf s.mem = true) (hlen : bs.length ≤ 4096) (j : Nat)
    (hj : j < bs.length) : (s.placeBytes a bs).memRead (a + j) = bs[j] := by
  induction bs generalizing s a j with
  | nil => simp at hj
  | cons b bs ih =>
    simp only [List.length_cons] at hlen hj
    have hwf' := s.memWrite_wf hwf a b
    rw [State.placeBytes]
    cases j with
    | zero =>
      rw [State.memRead_placeBytes_outside hwf' fun k hk => by omega, State.memRead_memWrite _ hwf, if_pos (by simp)]
      rfl
    | succ j =>
      have hrest := ih hwf' (a := a + 1) (by omega) j (by omega)
      rw [Nat.add_right_comm] at hrest
      exact hrest

end

theorem tableBytes_toNat (w : Word) : tableBytes 16 w.toNat = bytesOfWord w := by
  rw [tableBytes, Nat.mod_eq_of_lt w.isLt, BitVec.ofNat_toNat, BitVec.setWidth_eq]

/-- A word placed at `pc` is the one fetched there (R51). -/
theorem State.fetchWord_withFetchWord {s : State} (hwf : Memory.wf s.mem = true) (w : Word) :
    (s.withFetchWord 16 w.toNat).fetchWord = w := by
  have hpc : (s.withFetchWord 16 w.toNat).pc = s.pc := State.placeBytes_pc ..
  have hread : ∀ j (hj : j < 2), (s.withFetchWord 16 w.toNat).memRead (s.pc.toNat + j) = (bytesOfWord w)[j] := by
    rw [State.withFetchWord, tableBytes_toNat]
    exact State.memRead_placeBytes_inside (bs := bytesOfWord w) hwf (by simp [bytesOfWord])
  have hhigh := hread 0 (by omega)
  have hlow := hread 1 (by omega)
  rw [Nat.add_zero] at hhigh
  rw [State.fetchWord, hpc, hhigh, hlow]
  exact wordOfBytes_bytesOfWord w

/-- Settles O55: the placed word decodes to the instruction it encodes. -/
theorem placedInstructionIsTheOneStepRuns : Obligations.PlacedInstructionIsTheOneStepRuns := by
  intro i s hwf
  have hdecode := decodeWord_encode decidedConfig i
  constructor
  · have hbytes := decodeBytes_of_decodeWord hdecode []
    rw [List.append_nil] at hbytes
    rw [decodeTableWord, tableBytes_toNat, hbytes]
  · exact cycleWith_of_decodes rfl (by rw [State.fetchWord_withFetchWord hwf, hdecode])

end Sys2Proof.Machine
end

section
/-! Canonical memories (log 5), the boot sequence (R261), and sequences of host events. -/

namespace Sys2Proof.Machine

/-- The first address a canonical memory lists does not read as an unlisted one does. -/
theorem Memory.read_head {lo k : Nat} {b : Byte} {m : Memory} (h : Memory.wfFrom lo ((k, b) :: m) = true) :
    Memory.read ((k, b) :: m) k ≠ unlistedByte := by
  obtain ⟨-, -, hb, -⟩ := (Memory.wfFrom_cons ..).mp h
  rwa [Memory.read_cons, if_pos rfl]

/-- Canonical memories that read alike do not begin at different addresses: nothing is listed below the first. -/
theorem Memory.head_le_of_read_eq {lo lo' k k' : Nat} {b b' : Byte} {m m' : Memory}
    (h : Memory.wfFrom lo ((k, b) :: m) = true) (h' : Memory.wfFrom lo' ((k', b') :: m') = true)
    (hread : ∀ a, Memory.read ((k, b) :: m) a = Memory.read ((k', b') :: m') a) : k' ≤ k := by
  by_contra hlt
  obtain ⟨-, hrest⟩ := (Memory.wfFrom_cons ..).mp h'
  have hfrom : Memory.wfFrom k' ((k', b') :: m') = true := (Memory.wfFrom_cons ..).mpr ⟨le_refl k', hrest⟩
  exact Memory.read_head h ((hread k).trans (Memory.read_below hfrom (by omega)))

theorem Memory.eq_of_read_eq {lo lo' : Nat} : ∀ {m m' : Memory}, Memory.wfFrom lo m = true →
    Memory.wfFrom lo' m' = true → (∀ a, Memory.read m a = Memory.read m' a) → m = m'
  | [], [], _, _, _ => rfl
  | [], (k, _) :: _, _, h', hread => absurd (hread k).symm (Memory.read_head h')
  | (k, _) :: _, [], h, _, hread => absurd (hread k) (Memory.read_head h)
  | (k, b) :: m, (k', b') :: m', h, h', hread => by
    obtain rfl : k = k' := Nat.le_antisymm (Memory.head_le_of_read_eq h' h fun a => (hread a).symm)
      (Memory.head_le_of_read_eq h h' hread)
    obtain ⟨-, -, -, hm⟩ := (Memory.wfFrom_cons ..).mp h
    obtain ⟨-, -, -, hm'⟩ := (Memory.wfFrom_cons ..).mp h'
    have hb : b = b' := by simpa [Memory.read_cons] using hread k
    have htail : ∀ a, Memory.read m a = Memory.read m' a := by
      intro a
      by_cases ha : k = a
      · rw [Memory.read_below hm (by omega), Memory.read_below hm' (by omega)]
      · simpa [Memory.read_cons, ha] using hread a
    rw [hb, Memory.eq_of_read_eq hm hm' htail]

/-- Settles O60: from 4096 on both memories list nothing, so they read alike everywhere. -/
theorem canonicalMemoriesThatReadAlikeAreEqual : Obligations.CanonicalMemoriesThatReadAlikeAreEqual := by
  intro m m' hm hm' h
  refine Memory.eq_of_read_eq hm hm' fun a => ?_
  by_cases ha : a < 4096
  · exact h a ha
  · rw [Memory.read_above hm (by omega), Memory.read_above hm' (by omega)]

/-! Boot. -/

theorem hostRun_cons {cfg : Config} {e : HostEvent} {s t : State} (h : hostEvent cfg e s = .next t)
    (es : List HostEvent) : hostRun cfg (e :: es) s = hostRun cfg es t := by
  simp only [hostRun, h]

theorem hostRun_append {cfg : Config} {es : List HostEvent} {s t : State} (h : hostRun cfg es s = .next t)
    (fs : List HostEvent) : hostRun cfg (es ++ fs) s = hostRun cfg fs t := by
  induction es generalizing s with
  | nil =>
    cases h
    rfl
  | cons e es ih =>
    cases hevent : hostEvent cfg e s with
    | next u =>
      rw [hostRun_cons hevent] at h
      exact (hostRun_cons hevent _).trans (ih h)
    | fault r => simp [hostRun, hevent] at h
    | refused r => simp [hostRun, hevent] at h

/-- The LoadMem events of a list of bytes place the bytes (R236). -/
theorem hostRun_loadEvents (cfg : Config) {s : State} (running : s.status = .running) (a : Nat) (bs : List Byte) :
    hostRun cfg (loadEvents a bs) s = .next (s.placeBytes a bs) := by
  induction bs generalizing s a with
  | nil => rfl
  | cons b bs ih =>
    have hload : hostEvent cfg (.loadMem a b) s = .next (s.memWrite a b) :=
      congrArg Host.Outcome.next (State.whileRunning_of_running running _)
    exact (hostRun_cons hload _).trans (ih (s := s.memWrite a b) running (a + 1))

theorem fontTable_length : fontTable.length = 80 := by decide

/-- The font in memory (R64). -/
def State.withFont (s : State) : State := s.placeBytes 80 fontTable

/-- Settles O47: the boot sequence places the font, then the program, in a memory of zeros; the two do not overlap. -/
theorem bootPlacesFontAndProgram : Obligations.BootPlacesFontAndProgram := by
  intro cfg rom s hrom
  have hlen : rom.length ≤ 3584 := decide_eq_true_iff.mp hrom
  have hfont := fontTable_length
  have hrunning : s.afterReset.withFont.status = .running := State.placeBytes_status ..
  have hwf : Memory.wf s.afterReset.withFont.mem = true := State.placeBytes_wf rfl
  refine ⟨s.afterReset.withFont.placeBytes 512 rom, ?run, ?pc, ?status, fun j hj => ?program, fun j hj => ?font,
    fun a ha => ?zeros⟩
  case run =>
    have hfontRun := hostRun_loadEvents cfg (s := s.afterReset) rfl 80 fontTable
    rw [← State.withFont] at hfontRun
    rw [bootEvents, hostRun_cons (t := s.afterReset) rfl, hostRun_append hfontRun, hostRun_loadEvents cfg hrunning]
  case pc => rw [State.placeBytes_pc, State.withFont, State.placeBytes_pc]; rfl
  case status => rw [State.placeBytes_status, hrunning]
  case program => exact State.memRead_placeBytes_inside hwf (by omega) j hj
  case font =>
    rw [State.memRead_placeBytes_outside hwf fun k hk => by omega]
    exact State.memRead_placeBytes_inside rfl (by omega) j hj
  case zeros =>
    rw [State.memRead_placeBytes_outside hwf fun k hk => by omega, State.withFont,
      State.memRead_placeBytes_outside rfl fun k hk => by omega]
    rfl

end Sys2Proof.Machine
end

section
/-! DRW (R191, R192): a draw flips the covered cells, so a second draw flips them back. -/

namespace Sys2Proof.Machine

open Sys2Proof.Claims

/-- The state a draw leaves (R191). -/
def State.drawn (s : State) (x y : Reg) (n : Nibble) : State :=
  (s.setFb (drawSprite s (s.getV x) (s.getV y) n.toNat).fb).setV vf
    (flagByte (drawSprite s (s.getV x) (s.getV y) n.toNat).hit)

theorem exec_drw (x y : Reg) (n : Nibble) (s : State) : exec (.drw x y n) s = .next (s.drawn x y n) := rfl

section
variable (s : State) (x y : Reg) (n : Nibble)

theorem State.fbRead_drawn {cx cy : Nat} (hcx : cx < 64) (hcy : cy < 32) : fbRead (s.drawn x y n).fb cx cy =
    (fbRead s.fb cx cy ^^ s.spriteCovers (s.getV x) (s.getV y) n.toNat cx cy) :=
  (drawSprite_spec s _ _ _).1 cx cy hcx hcy

theorem State.drawn_vf : ((s.drawn x y n).getV vf).toNat =
    bit ((drawSprite s (s.getV x) (s.getV y) n.toNat).hit = true) := by
  rw [State.drawn, State.getV_setV_same, flagByte_toNat Iff.rfl]

theorem State.drawn_vf_eq_one_iff : ((s.drawn x y n).getV vf).toNat = 1 ↔ ∃ cx cy, cx < 64 ∧ cy < 32 ∧
    s.spriteCovers (s.getV x) (s.getV y) n.toNat cx cy = true ∧ fbRead s.fb cx cy = true := by
  rw [State.drawn_vf, ← (drawSprite_spec s (s.getV x) (s.getV y) n.toNat).2, bit]
  split <;> simp_all

theorem State.drawn_vf_eq_zero_iff : ((s.drawn x y n).getV vf).toNat = 0 ↔ ¬((s.drawn x y n).getV vf).toNat = 1 := by
  rw [State.drawn_vf, bit]
  split <;> simp

end

theorem flipped_eq_self_iff (lit covered : Bool) : (lit ^^ covered) = lit ↔ covered = false := by
  cases lit <;> cases covered <;> decide

/-- Settles O26: the laws of the whole draw, read at a cell and at VF. -/
theorem drawFlipsCoveredCellsAndFlagsCollision : Obligations.DrawFlipsCoveredCellsAndFlagsCollision := by
  intro x y n s
  refine ⟨_, exec_drw x y n s, fun cx cy hcx hcy => ?cell, ?lit, fun hdark => ?dark, ?frame⟩
  case cell =>
    rw [s.fbRead_drawn x y n hcx hcy]
    exact flipped_eq_self_iff _ _
  case lit => exact (s.drawn_vf_eq_one_iff x y n).mpr
  case dark =>
    rw [s.drawn_vf_eq_zero_iff x y n, s.drawn_vf_eq_one_iff x y n]
    rintro ⟨cx, cy, hcx, hcy, hcover, hlit⟩
    simp [hdark cx cy hcx hcy hcover] at hlit
  case frame => exact frame_setV (frame_setFb (frame_refl _ _ s) (by decide) _) (by decide) _

/-- A draw whose operands are not VF leaves everything the next draw's geometry depends on. -/
theorem State.spriteCovers_drawn (s : State) {x y : Reg} (hx : x ≠ vf) (hy : y ≠ vf) (n : Nibble) (cx cy : Nat) :
    (s.drawn x y n).spriteCovers ((s.drawn x y n).getV x) ((s.drawn x y n).getV y) n.toNat cx cy =
      s.spriteCovers (s.getV x) (s.getV y) n.toNat cx cy := by
  have hkept : ∀ r, r ≠ vf → (s.drawn x y n).getV r = s.getV r := fun r hr => by
    rw [State.drawn, State.getV_setV, if_neg hr, State.setFb_getV]
  rw [hkept x hx, hkept y hy]
  rfl

/-- Settles O27: a covered cell is lit before the second draw exactly when it was dark before the first. -/
theorem drawTwiceRestoresTheScreen : Obligations.DrawTwiceRestoresTheScreen := by
  intro x y n s hx hy
  refine ⟨_, _, exec_drw x y n s, exec_drw x y n _, ?screen, ?flag⟩
  case screen =>
    apply Framebuffer.ext_cells
    intro cx cy hcx hcy
    rw [State.fbRead_drawn _ x y n hcx hcy, State.fbRead_drawn s x y n hcx hcy, s.spriteCovers_drawn hx hy,
      Bool.xor_assoc, Bool.xor_self, Bool.xor_false]
  case flag =>
    rw [State.drawn_vf_eq_one_iff]
    refine exists_congr fun cx => exists_congr fun cy => and_congr_right fun hcx => and_congr_right fun hcy => ?_
    rw [s.spriteCovers_drawn hx hy, State.fbRead_drawn s x y n hcx hcy]
    refine and_congr_right fun hcover => ?_
    rw [hcover]
    simp

end Sys2Proof.Machine
end

section
/-! The end of a run (R268, D33). -/

namespace Sys2Proof.Machine

open Sys2Proof.Claims

/-- A jump to the address `pc` holds puts `pc` back over the cycle's advance (R121). -/
theorem cycleWith_of_selfJump {cfg : Config} {s : State} {nnn : Addr} (running : s.status = .running)
    (decodes : decodeWord cfg s.fetchWord = some (.jp nnn)) (hpc : s.pc.toNat = nnn.toNat) :
    cycleWith cfg s = .next s := by
  have hback : zext16OfAddr nnn = s.pc := BitVec.eq_of_toNat_eq (by rw [zext16OfAddr_toNat, hpc])
  rw [cycleWith_of_decodes running decodes]
  change Host.Outcome.next (s.advance.setPc (zext16OfAddr nnn)) = _
  rw [hback]
  rfl

/-- Every host event answers a next state. -/
theorem hostEvent_next (cfg : Config) (e : HostEvent) (s : State) : ∃ t, hostEvent cfg e s = .next t := by
  cases e with
  | cycle =>
    cases hstatus : s.status with
    | fault c => exact ⟨s, cycleWith_of_faulted hstatus⟩
    | running =>
      obtain ⟨t, hcycle, -⟩ := cycleEndsNormallyOrInOneOfTwoFaults cfg s hstatus
      exact ⟨t, hcycle⟩
  | _ => exact ⟨_, rfl⟩

/-- The run goes on at `s` when the block runs and is at no jump to itself. -/
theorem runEnd_eq_none_iff {cfg : Config} {s : State} :
    s.runEnd cfg = none ↔ s.status = .running ∧ ¬isAtSelfJump cfg s := by
  rw [State.runEnd_eq_none, isAtSelfJump, ← State.atSelfJump_iff, Bool.not_eq_true]

theorem goesOn_nil {cfg : Config} {s : State} : goesOn cfg [] s ↔ s.runEnd cfg = none := by
  rw [runEnd_eq_none_iff]
  constructor
  · rintro ⟨t, ht, h⟩
    cases ht
    exact h
  · exact fun h => ⟨s, rfl, h⟩

/-- The run goes on after every first part of the events. -/
def goesOnThroughout (cfg : Config) (es : List HostEvent) (s : State) : Prop := ∀ b c, es = b ++ c → goesOn cfg b s

theorem goesOnThroughout_nil {cfg : Config} {s : State} : goesOnThroughout cfg [] s ↔ s.runEnd cfg = none := by
  rw [← goesOn_nil]
  constructor
  · exact fun h => h [] [] rfl
  · intro h b c hbc
    rw [(List.append_eq_nil_iff.mp hbc.symm).1]
    exact h

/-- Before any event the first arrival is where the run starts. -/
theorem arrivesFirst_start (cfg : Config) (es : List HostEvent) (s : State) : arrivesFirst cfg es s s :=
  ⟨[], es, rfl, rfl, fun _ _ hbc hc => absurd (List.append_eq_nil_iff.mp hbc.symm).2 hc⟩

/-- Where the run has ended, nothing later is a first arrival. -/
theorem arrivesFirst_of_end {cfg : Config} {es : List HostEvent} {s t : State} (hend : s.runEnd cfg ≠ none) :
    arrivesFirst cfg es s t ↔ t = s := by
  constructor
  · rintro ⟨before, after, -, hrun, hgoes⟩
    cases before with
    | nil =>
      cases hrun
      rfl
    | cons e before => exact absurd (goesOn_nil.mp (hgoes [] _ rfl (List.cons_ne_nil e before))) hend
  · rintro rfl
    exact arrivesFirst_start cfg es t

theorem arrivesFirst_nil {cfg : Config} {s t : State} : arrivesFirst cfg [] s t ↔ t = s := by
  constructor
  · rintro ⟨before, after, hes, hrun, -⟩
    rw [(List.append_eq_nil_iff.mp hes.symm).1] at hrun
    cases hrun
    rfl
  · rintro rfl
    exact arrivesFirst_start cfg [] t

section
variable {cfg : Config} {e : HostEvent} {s u : State} (hevent : hostEvent cfg e s = .next u) (es : List HostEvent)
include hevent

theorem goesOn_cons : goesOn cfg (e :: es) s ↔ goesOn cfg es u := by
  simp only [goesOn, hostRun_cons hevent]

theorem goesOnThroughout_cons :
    goesOnThroughout cfg (e :: es) s ↔ s.runEnd cfg = none ∧ goesOnThroughout cfg es u := by
  rw [← goesOn_nil]
  constructor
  · exact fun h => ⟨h [] _ rfl, fun b c hbc => (goesOn_cons hevent b).mp (h (e :: b) c (congrArg _ hbc))⟩
  · rintro ⟨hnow, hlater⟩ b c hbc
    cases b with
    | nil => exact hnow
    | cons e' b =>
      obtain ⟨rfl, hes⟩ := List.cons.inj hbc
      exact (goesOn_cons hevent b).mpr (hlater b c hes)

theorem arrivesFirst_cons (hgoes : s.runEnd cfg = none) {t : State} :
    arrivesFirst cfg (e :: es) s t ↔ t = s ∨ arrivesFirst cfg es u t := by
  constructor
  · rintro ⟨before, after, hes, hrun, hbefore⟩
    cases before with
    | nil =>
      cases hrun
      exact .inl rfl
    | cons e' before =>
      obtain ⟨rfl, hrest⟩ := List.cons.inj hes
      rw [hostRun_cons hevent] at hrun
      exact .inr ⟨before, after, hrest, hrun, fun b c hbc hc =>
        (goesOn_cons hevent b).mp (hbefore (e :: b) c (congrArg _ hbc) hc)⟩
  · rintro (rfl | ⟨before, after, hes, hrun, hbefore⟩)
    · exact arrivesFirst_start cfg _ t
    · refine ⟨e :: before, after, congrArg _ hes, (hostRun_cons hevent before).trans hrun, fun b c hbc hc => ?_⟩
      cases b with
      | nil => exact goesOn_nil.mpr hgoes
      | cons e' b =>
        obtain ⟨rfl, hrest⟩ := List.cons.inj hbc
        exact (goesOn_cons hevent b).mpr (hbefore b c hrest hc)

end

/-- `r` is the end of the run from `s` through the events `es`, as the first arrival or the host's stop decides it. -/
structure EndsAs (cfg : Config) (es : List HostEvent) (s : State) (r : RunEnd) : Prop where
  selfJump : ∀ t, r = .selfJump t ↔ arrivesFirst cfg es s t ∧ isAtSelfJump cfg t
  faulted : ∀ c, r = .faulted c ↔ ∃ t, arrivesFirst cfg es s t ∧ t.status = .fault c
  hostStopped : ∀ t, r = .hostStopped t ↔ hostRun cfg es s = .next t ∧ goesOnThroughout cfg es s

theorem not_goesOnThroughout_of_end {cfg : Config} {s : State} (hend : s.runEnd cfg ≠ none) (es : List HostEvent) :
    ¬goesOnThroughout cfg es s := fun h => hend (goesOn_nil.mp (h [] es rfl))

/-- A state that is an end ends every run from it. -/
theorem endsAs_of_end {cfg : Config} {s : State} {r : RunEnd} (hr : s.runEnd cfg = some r) (es : List HostEvent) :
    EndsAs cfg es s r := by
  have hend : s.runEnd cfg ≠ none := by simp [hr]
  have hstop := not_goesOnThroughout_of_end hend es
  unfold State.runEnd at hr
  split at hr
  · next cause faulted =>
    cases hr
    have hat : ¬isAtSelfJump cfg s := fun h => by simp [h.1] at faulted
    refine ⟨fun t => ?_, fun c => ?_, fun t => by simp [hstop]⟩
    · simp only [arrivesFirst_of_end hend, reduceCtorEq, false_iff]
      rintro ⟨rfl, ht⟩
      exact hat ht
    · simp [arrivesFirst_of_end hend, faulted]
  · next running =>
    split at hr
    · next hjump =>
      cases hr
      have hat : isAtSelfJump cfg s := (State.atSelfJump_iff cfg s).mp hjump
      refine ⟨fun t => ?_, fun c => ?_, fun t => by simp [hstop]⟩
      · rw [arrivesFirst_of_end hend, RunEnd.selfJump.injEq, eq_comm]
        exact ⟨fun h => ⟨h, h ▸ hat⟩, And.left⟩
      · simp [arrivesFirst_of_end hend, running]
    · cases hr

theorem endsAs_of_no_events {cfg : Config} {s : State} (hgoes : s.runEnd cfg = none) :
    EndsAs cfg [] s (.hostStopped s) := by
  obtain ⟨running, hjump⟩ := runEnd_eq_none_iff.mp hgoes
  refine ⟨fun t => ?_, fun c => ?_, fun t => ?_⟩
  · simp only [arrivesFirst_nil, reduceCtorEq, false_iff]
    rintro ⟨rfl, ht⟩
    exact hjump ht
  · simp [arrivesFirst_nil, running]
  · simp [goesOnThroughout_nil, hgoes, hostRun]

theorem endsAs_cons {cfg : Config} {e : HostEvent} {es : List HostEvent} {s u : State} {r : RunEnd}
    (hgoes : s.runEnd cfg = none) (hevent : hostEvent cfg e s = .next u) (h : EndsAs cfg es u r) :
    EndsAs cfg (e :: es) s r := by
  obtain ⟨running, hjump⟩ := runEnd_eq_none_iff.mp hgoes
  refine ⟨fun t => ?_, fun c => ?_, fun t => ?_⟩
  · rw [h.selfJump, arrivesFirst_cons hevent es hgoes]
    refine and_congr_left fun ht => (or_iff_right ?_).symm
    rintro rfl
    exact hjump ht
  · rw [h.faulted]
    refine exists_congr fun t => and_congr_left fun ht => ?_
    rw [arrivesFirst_cons hevent es hgoes]
    refine (or_iff_right ?_).symm
    rintro rfl
    simp [running] at ht
  · rw [h.hostStopped, hostRun_cons hevent, goesOnThroughout_cons hevent, and_iff_right hgoes]

theorem runUntilEnd_endsAs (cfg : Config) (es : List HostEvent) (s : State) :
    ∃ r, runUntilEnd cfg es s = some r ∧ EndsAs cfg es s r := by
  induction es generalizing s with
  | nil =>
    cases hend : s.runEnd cfg with
    | some r => exact ⟨r, runUntilEnd_of_end hend [], endsAs_of_end hend []⟩
    | none => exact ⟨_, by rw [runUntilEnd, hend]; rfl, endsAs_of_no_events hend⟩
  | cons e es ih =>
    cases hend : s.runEnd cfg with
    | some r => exact ⟨r, runUntilEnd_of_end hend _, endsAs_of_end hend _⟩
    | none =>
      obtain ⟨u, hevent⟩ := hostEvent_next cfg e s
      obtain ⟨r, hrun, hr⟩ := ih u
      exact ⟨r, (runUntilEnd_step hend hevent es).trans hrun, endsAs_cons hend hevent hr⟩

/-- Settles O39: the fixed point, and the end of a run by induction over the host's events. -/
theorem jumpToItselfIsAFixedPoint : Obligations.JumpToItselfIsAFixedPoint := by
  refine ⟨fun cfg s nnn running decodes hpc => cycleWith_of_selfJump running decodes hpc, fun cfg es s => ?_⟩
  obtain ⟨r, hrun, hselfJump, hfaulted, hhostStopped⟩ := runUntilEnd_endsAs cfg es s
  exact ⟨r, hrun, hselfJump, hfaulted, hhostStopped⟩

end Sys2Proof.Machine
end
